-- ==== Sys2Proof/Word.lean ====
section
/-! DEFINITION. The word types of the core (00_scope.md R11, 10_state.md R33, R40, R42): what the spec adds, shifts, compares
or packs as bits is a bit vector; every address of MemoryImage is a plain Nat. -/

namespace Sys2Proof

/-- A byte: 8 bits, unsigned (R11). -/
abbrev Byte := BitVec 8

/-- A program address and the program counter: 16 bits (R33). -/
abbrev Addr := BitVec 16

/-- A packed pixel of the FrameBuffer: 24 bits (R40, R214). -/
abbrev Rgb := BitVec 24

/-- A time in milliseconds as the host passes it: unsigned 64 bits (R42, R190). -/
abbrev Millis := BitVec 64

end Sys2Proof
end

