-- ==== Sys2Proof/Machine/Operands.lean ====
section
/-! DEFINITION. The operand forms (30_encoding.md §3): immediate byte (R94), one-byte store address (R95), absolute jump target
(R96). No form sign-extends, scales, indexes or is relative to the pc. -/

namespace Sys2Proof.Machine

/-- The value of the `LDA` operand: the byte unchanged (R94). -/
def immediate (imm8 : Byte) : Byte := imm8

/-- The MemoryImage address a `STA` names: `zext_16(addr8)` (R95). -/
def effectiveAddr (addr8 : Byte) : Nat := (addr8.setWidth 16).toNat

/-- The `JMP` target from its two operand bytes, the first the low one: `b2 ++ b1` (R96, R71). -/
def jumpTarget (lo hi : Byte) : Addr := hi ++ lo

/-- The low operand byte of a target, bits 7:0 (R92). -/
def targetLo (t : Addr) : Byte := t.extractLsb' 0 8

/-- The high operand byte of a target, bits 15:8 (R92). -/
def targetHi (t : Addr) : Byte := t.extractLsb' 8 8

end Sys2Proof.Machine
end

