-- ==== Sys2Proof/Config.lean ====
section
/-! DEFINITION. The configuration (00_scope.md R9): one field per row of the parameter table, and the reference values.
PROG_MAX is the one row computed from another. The constraints of R10 are in WellFormed.lean. -/

namespace Sys2Proof

/-- The parameters of a core, fixed at its construction (R9). -/
structure Config where
  /-- `MEM_SIZE`, bytes of MemoryImage. -/
  memSize : Nat
  /-- `ENTRY`, the program address of image byte 0. -/
  entry : Addr
  /-- `NUM_BUTTONS`. -/
  numButtons : Nat
  /-- `W`, pixels in a row. -/
  width : Nat
  /-- `H`, rows. -/
  height : Nat
  /-- `BUDGET`, instructions per executed tick. -/
  budget : Nat
  /-- `STEP`, position units per pressed direction and tick. -/
  stepSize : Nat
  /-- `SPRITE`, the side of the block. -/
  sprite : Nat
  /-- `TICK_HZ`. -/
  tickHz : Nat
  /-- `POS_RESET.x`. -/
  posResetX : Nat
  /-- `POS_RESET.y`. -/
  posResetY : Nat
  /-- `OPC_LDI`, the opcode byte of LDA. -/
  opcLdi : Byte
  /-- `OPC_STA`. -/
  opcSta : Byte
  /-- `OPC_JMP`. -/
  opcJmp : Byte
  /-- `CELL_X`, a MemoryImage address. -/
  cellX : Nat
  /-- `CELL_Y`. -/
  cellY : Nat
  /-- `CELL_DIR`. -/
  cellDir : Nat
  /-- `BTN_UP`, a button id. -/
  btnUp : Nat
  /-- `BTN_DOWN`. -/
  btnDown : Nat
  /-- `BTN_LEFT`. -/
  btnLeft : Nat
  /-- `BTN_RIGHT`. -/
  btnRight : Nat
  /-- `CLEAR_COLOR`. -/
  clearColor : Rgb
  /-- `SPRITE_COLOR`. -/
  spriteColor : Rgb
  /-- `DEMO_IMAGE`. -/
  demoImage : List Byte
  deriving DecidableEq, Repr

/-- `PROG_MAX = 0x10000 - ENTRY` (R9, D6). -/
def Config.progMax (c : Config) : Nat := 0x10000 - c.entry.toNat

/-- A free value: the first byte of the built-in demo image, which the source does not give (D19; log 10). -/
opaque Config.demoFirst : Byte

/-- A free value: the bytes of the built-in demo image after the first (D19; log 10). -/
opaque Config.demoRest : List Byte

/-- The reference configuration: the *source* rows of R9, and the defaults R9 names for the OPEN rows (D1, D10, D11, D17;
log 5 to 9). `DEMO_IMAGE` is any image of a length R10 (f) allows: a first byte and at most PROG_MAX - 1 more, all free. -/
def Config.reference : Config where
  memSize := 65536
  entry := 0x8000
  numButtons := 16
  width := 256
  height := 224
  budget := 1000
  stepSize := 2
  sprite := 20
  tickHz := 60
  posResetX := 128
  posResetY := 112
  opcLdi := 0xA9
  opcSta := 0x85
  opcJmp := 0x4C
  cellX := 0x0100
  cellY := 0x0101
  cellDir := 0x0102
  btnUp := 4
  btnDown := 5
  btnLeft := 6
  btnRight := 7
  clearColor := 0x000000
  spriteColor := 0xFF0000
  demoImage := Config.demoFirst :: Config.demoRest.take 32767

end Sys2Proof
end

