-- ==== Sys2Proof/Syntax.lean ====
section
/-! DEFINITION. The instructions (30_encoding.md R90, R92): one constructor per row of spec/opcode_table.json, and the four
opcode classes. -/

namespace Sys2Proof

/-- The class an opcode byte selects (R90). -/
inductive OpClass where
  | lda
  | sta
  | jmp
  | nop
  deriving DecidableEq, Repr

/-- An instruction with its operand assembled (R94, R95, R96). -/
inductive Instr where
  /-- `LDA #imm8` (R140). -/
  | lda (imm8 : Byte)
  /-- `STA $addr8` (R141). -/
  | sta (addr8 : Byte)
  /-- `JMP $abs16` (R150). -/
  | jmp (abs16 : Addr)
  /-- Any other opcode byte, kept so that the encoding is not lost (R160). -/
  | nop (opcode : Byte)
  deriving DecidableEq, Repr

/-- The class of an instruction. -/
def Instr.opClass : Instr → OpClass
  | .lda _ => .lda
  | .sta _ => .sta
  | .jmp _ => .jmp
  | .nop _ => .nop

end Sys2Proof
end

