-- ==== Sys2Proof/WellFormed.lean ====
section
/-! DEFINITION. What the spec requires of a configuration (00_scope.md R10, one check per clause) and of an instruction
(30_encoding.md R97: a NOP's byte is none of the three opcodes). -/

namespace Sys2Proof

/-- R10 (a). -/
def Config.opcodesOk (c : Config) : Bool :=
  c.opcLdi != c.opcSta && c.opcLdi != c.opcJmp && c.opcSta != c.opcJmp

/-- R10 (b). -/
def Config.cellsOk (c : Config) : Bool :=
  c.cellX != c.cellY && c.cellX != c.cellDir && c.cellY != c.cellDir &&
    decide (c.cellX < c.memSize) && decide (c.cellY < c.memSize) && decide (c.cellDir < c.memSize)

/-- R10 (c). -/
def Config.buttonsOk (c : Config) : Bool :=
  decide [c.btnUp, c.btnDown, c.btnLeft, c.btnRight].Nodup &&
    decide (c.btnUp < c.numButtons) && decide (c.btnDown < c.numButtons) &&
    decide (c.btnLeft < c.numButtons) && decide (c.btnRight < c.numButtons)

/-- R10 (d). -/
def Config.spriteOk (c : Config) : Bool :=
  decide (c.sprite ≤ c.width) && decide (c.sprite ≤ c.height) &&
    decide (c.width - c.sprite ≤ 255) && decide (c.height - c.sprite ≤ 255)

/-- R10 (e); that ENTRY is at most 0xFFFF is its type. -/
def Config.entryOk (c : Config) : Bool := decide (0 < c.entry.toNat)

/-- R10 (f). -/
def Config.demoOk (c : Config) : Bool :=
  decide (1 ≤ c.demoImage.length) && decide (c.demoImage.length ≤ c.progMax)

/-- R10 (g); that BUDGET is not negative is its type. -/
def Config.sizesOk (c : Config) : Bool :=
  decide (1 ≤ c.tickHz) && decide (256 ≤ c.memSize) && decide (c.memSize ≤ 65536)

/-- R10 (h). -/
def Config.posResetOk (c : Config) : Bool :=
  decide (c.posResetX ≤ c.width - c.sprite) && decide (c.posResetY ≤ c.height - c.sprite)

/-- Every constraint of R10. -/
def Config.wf (c : Config) : Bool :=
  c.opcodesOk && c.cellsOk && c.buttonsOk && c.spriteOk && c.entryOk && c.demoOk && c.sizesOk && c.posResetOk

/-- A well-formed instruction of a configuration: the operands fit by their types, and a NOP's byte is not one of the three
opcode values (R97, R160). -/
def Instr.wf (c : Config) : Instr → Bool
  | .lda _ => true
  | .sta _ => true
  | .jmp _ => true
  | .nop op => op != c.opcLdi && op != c.opcSta && op != c.opcJmp

end Sys2Proof
end

