-- ==== Sys2Proof/Decode.lean ====
section
/-! DEFINITION. Decoding (30_encoding.md R90 to R97), total on any bytes: every opcode byte has a class, and the one way to be
rejected is to lack bytes. After it the encoder, written from the same format table (R92). -/

namespace Sys2Proof

open Machine (jumpTarget targetLo targetHi)

/-- The class of an opcode byte, its arms tested in the order of R97. -/
def classOf (c : Config) (op : Byte) : OpClass :=
  if op = c.opcLdi then .lda
  else if op = c.opcSta then .sta
  else if op = c.opcJmp then .jmp
  else .nop

/-- The length in bytes of an instruction of a class (R91). -/
def OpClass.length : OpClass → Nat
  | .lda => 2
  | .sta => 2
  | .jmp => 3
  | .nop => 1

/-- Why bytes are not an instruction. No encoding is illegal (R98): bytes can only be missing. -/
inductive DecodeError where
  /-- There is no opcode byte. -/
  | noOpcode
  /-- The opcode of this class lacks operand bytes. -/
  | operandMissing (cls : OpClass)
  deriving DecidableEq, Repr

/-- Reads one instruction from the front of a byte sequence and gives the bytes after it (R91, R92). -/
def decode (c : Config) : List Byte → Except DecodeError (Instr × List Byte)
  | [] => .error .noOpcode
  | op :: rest =>
    match classOf c op, rest with
    | .lda, b1 :: rest' => .ok (.lda b1, rest')
    | .sta, b1 :: rest' => .ok (.sta b1, rest')
    | .jmp, b1 :: b2 :: rest' => .ok (.jmp (jumpTarget b1 b2), rest')
    | .nop, rest' => .ok (.nop op, rest')
    | cls, _ => .error (.operandMissing cls)

/-- The bytes of an instruction (R92): the opcode, then the operand, low byte first. -/
def encode (c : Config) : Instr → List Byte
  | .lda imm8 => [c.opcLdi, imm8]
  | .sta addr8 => [c.opcSta, addr8]
  | .jmp abs16 => [c.opcJmp, targetLo abs16, targetHi abs16]
  | .nop op => [op]

/-- The three bytes of the longest instruction (R91) holding the low `nbits` bits of `w`, every bit above zero, the first byte
the least significant. -/
def tableBytes (nbits w : Nat) : List Byte :=
  [BitVec.ofNat 8 (w % 2 ^ nbits), BitVec.ofNat 8 (w % 2 ^ nbits / 0x100), BitVec.ofNat 8 (w % 2 ^ nbits / 0x10000)]

/-- The instruction the decoder reads from a word numbered as spec/opcode_table.json numbers it, in the reference
configuration (whose opcode values the table gives). -/
def decodeTableWord (nbits w : Nat) : Option Instr :=
  match decode Config.reference (tableBytes nbits w) with
  | .ok (i, _) => some i
  | .error _ => none

end Sys2Proof
end

