-- ==== Sys2Proof/Machine/State.lean ====
section
/-! DEFINITION. The state of the core (10_state.md R30), the fault and refusal reasons (60_exceptions.md R271, R276), and the
state after reset (70_reset_and_hazards.md R301). Plain data throughout. -/

namespace Sys2Proof.Machine

/-- MemoryImage (R36): sorted (address, byte) pairs, no entry equal to what an unlisted address reads as (Ops.lean). -/
abbrev Memory := List Host.Cell

/-- FrameBuffer (R40, R70): rows from the top, each a list of pixels from the left. -/
abbrev Frame := List (List Rgb)

/-- A snapshot (R46): MemoryImage contents and the ExecutionContext. -/
structure Snapshot where
  mem : List Byte
  pc : Addr
  a : Byte
  cycles : Nat
  deriving DecidableEq, Repr

/-- The two causes of ProgrammingError, the only fatal condition (R271, R273). -/
inductive Fault where
  /-- A MemoryImage access outside `[0, MEM_SIZE)`, raised by MemRead and MemWrite (R63, R64). The spec's own fault, so safe;
  no reachable state of a well-formed configuration raises it (R76). -/
  | addressOutOfRange (addr : Nat)
  /-- An instruction whose operand bytes pass the end of the ProgramImage, raised by the instruction fetch of a step (R127). The
  spec's own fault, so safe. -/
  | operandPastImageEnd (pc : Addr)
  deriving DecidableEq, Repr

/-- Why the model gives no meaning (R276). -/
inductive Refusal where
  /-- An instruction that has no meaning yet, raised by exec's arm for it. Safe. No arm raises it. -/
  | notModelled (mnemonic : String)
  /-- A command, or a step, of a core a ProgrammingError has terminated (R274, D23). Safe. -/
  | terminated
  /-- A tick, or a step, with no program loaded (R190, D15). Safe. -/
  | notRunnable
  /-- A tick whose time is below the last executed tick's (R190, D14). Safe. -/
  | timeBackwards
  /-- A load of more than PROG_MAX bytes (R252, D6). Safe. -/
  | imageTooLarge
  /-- Construction with a configuration that breaks R10 (D13). Safe. -/
  | badConfig
  deriving DecidableEq, Repr

/-- The state record of R30, and the configuration the core was constructed with, which no operation writes. -/
structure State where
  /-- The parameters of R9 (the model's own field, log 1). -/
  cfg : Config
  /-- ProgramImage; none = no program loaded (R38). -/
  prog : Option (List Byte)
  /-- MemoryImage (R36). -/
  mem : Memory
  /-- Program counter (R33). -/
  pc : Addr
  /-- Accumulator, the whole register file (R31). -/
  a : Byte
  /-- Cycle counter (R34). -/
  cycles : Nat
  /-- InputState, indexed by button id, true = pressed (R39). -/
  input : List Bool
  /-- FrameBuffer (R40). -/
  frame : Frame
  /-- Time of the last executed tick (R42). -/
  lastTick : Option Millis
  /-- The single snapshot slot (R43). -/
  slot : Option Snapshot
  /-- The terminated bit of R41 with the cause and value R274 keeps with it: none = not terminated. -/
  fatal : Option Fault
  deriving DecidableEq, Repr

/-- A newly constructed core (R301). MemoryImage is as reset leaves it: nothing listed. -/
def State.ofConfig (c : Config) : State where
  cfg := c
  prog := none
  mem := []
  pc := 0
  a := 0
  cycles := 0
  input := List.replicate c.numButtons false
  frame := List.replicate c.height (List.replicate c.width c.clearColor)
  lastTick := none
  slot := none
  fatal := none

/-- The machine right after reset: a newly constructed core of the reference configuration (R301, R304). -/
def State.reset : State := State.ofConfig Config.reference

end Sys2Proof.Machine
end

