-- ==== Sys2Proof/Machine/Flags.lean ====
section
/-! DEFINITION. The interpreter has no status flags, condition codes or predicates (10_state.md R35), so no instruction computes
one. The conditions the core does test are the three control conditions of R41. -/

namespace Sys2Proof.Machine

/-- `loaded` is `prog != none` (R41). -/
def State.loaded (s : State) : Bool := s.prog.isSome

/-- The terminated bit (R41, R274). -/
def State.terminated (s : State) : Bool := s.fatal.isSome

/-- `runnable` is `loaded && !terminated` (R41). -/
def State.runnable (s : State) : Bool := s.loaded && !s.terminated

end Sys2Proof.Machine
end

