-- ==== Sys2Proof/Machine/Ops.lean ====
section
/-! DEFINITION. The named operations every instruction and command is built from: MemoryImage (20_memory.md R62 to R65), the
program window, the wrap and the fetch (R66, R121 to R123), the pc and the cycle counter (R124, R126), and the one exception of the core
(60_exceptions.md R274). -/

namespace Sys2Proof.Machine

/-! ### MemoryImage -/

/-- What an unlisted address reads as: the reset contents of MemoryImage (R300), written in the order of its pseudocode. -/
def unlistedByte (c : Config) (addr : Nat) : Byte :=
  if addr = c.cellDir then 0
  else if addr = c.cellY then BitVec.ofNat 8 c.posResetY
  else if addr = c.cellX then BitVec.ofNat 8 c.posResetX
  else 0

/-- `mem[addr]`. -/
def Memory.read (c : Config) : Memory → Nat → Byte
  | [], addr => unlistedByte c addr
  | (k, v) :: m, addr => if addr = k then v else Memory.read c m addr

/-- `mem[addr] <- v`, keeping the canonical form. -/
def Memory.write (c : Config) : Memory → Nat → Byte → Memory
  | [], addr, v => if v = unlistedByte c addr then [] else [(addr, v)]
  | (k, w) :: m, addr, v =>
    if addr < k then (if v = unlistedByte c addr then (k, w) :: m else (addr, v) :: (k, w) :: m)
    else if addr = k then (if v = unlistedByte c addr then m else (addr, v) :: m)
    else (k, w) :: Memory.write c m addr v

/-- The canonical form from address `lo` on: addresses strictly rising, below MEM_SIZE, no entry equal to the unlisted byte. -/
def Memory.wfFrom (c : Config) : Nat → Memory → Bool
  | _, [] => true
  | lo, (k, v) :: m =>
    decide (lo ≤ k) && decide (k < c.memSize) && (v != unlistedByte c k) && Memory.wfFrom c (k + 1) m

/-- The canonical form of MemoryImage. -/
def Memory.wf (c : Config) (m : Memory) : Bool := Memory.wfFrom c 0 m

/-- The canonical memory that holds the given bytes from address `k` on. -/
def Memory.ofBytesFrom (c : Config) : Nat → List Byte → Memory
  | _, [] => []
  | k, b :: bs =>
    if b = unlistedByte c k then Memory.ofBytesFrom c (k + 1) bs else (k, b) :: Memory.ofBytesFrom c (k + 1) bs

/-- `mem[i] <- bytes[i]` for every i (R233). -/
def Memory.ofBytes (c : Config) (bytes : List Byte) : Memory := Memory.ofBytesFrom c 0 bytes

/-- `[mem[0], ..., mem[MEM_SIZE-1]]` (R231). -/
def Memory.toBytes (c : Config) (m : Memory) : List Byte := (List.range c.memSize).map (Memory.read c m)

/-- `MemRead(addr, 1)` (R63). -/
def memRead (s : State) (addr : Nat) : Except Fault Byte :=
  if addr < s.cfg.memSize then .ok (Memory.read s.cfg s.mem addr) else .error (.addressOutOfRange addr)

/-- `MemWrite(addr, 1, v)` (R64). -/
def memWrite (s : State) (addr : Nat) (v : Byte) : Except Fault State :=
  if addr < s.cfg.memSize then .ok { s with mem := Memory.write s.cfg s.mem addr v }
  else .error (.addressOutOfRange addr)

/-! ### The register file, the pc and the cycle counter -/

/-- `x[A] <- v` (R12, R31). -/
def setA (s : State) (v : Byte) : State := { s with a := v }

/-- `pc <- (pc + n) mod 2^16` (R124). -/
def advancePc (s : State) (n : Nat) : State := { s with pc := s.pc + BitVec.ofNat 16 n }

/-- `pc <- target` (R12). -/
def setPc (s : State) (target : Addr) : State := { s with pc := target }

/-- `cycles <- cycles + 1` (R126). -/
def countCycle (s : State) : State := { s with cycles := s.cycles + 1 }

/-! ### The program window and the fetch -/

/-- The program window is `ENTRY <= addr < ENTRY + n` (R66). -/
def inWindow (c : Config) (image : List Byte) (addr : Nat) : Bool :=
  decide (c.entry.toNat ≤ addr) && decide (addr < c.entry.toNat + image.length)

/-- `ProgRead(addr)`, for an address inside the window (R66); elsewhere it is not called (log 21). -/
def progRead (c : Config) (image : List Byte) (addr : Nat) : Byte := image.getD (addr - c.entry.toNat) 0

/-- The pc a step fetches at: itself inside the window, ENTRY otherwise (R121). -/
def windowPc (c : Config) (image : List Byte) (pc : Addr) : Addr :=
  if inWindow c image pc.toNat then pc else c.entry

/-- The state after the wrap of R121, which writes nothing but the pc. -/
def wrapPc (s : State) : State :=
  match s.prog with
  | none => s
  | some image => setPc s (windowPc s.cfg image s.pc)

/-- The bytes at `pc`, `pc + 1` and `pc + 2` that lie inside the window; the addresses are unbounded integers (R120, R122,
R123). -/
def fetchBytes (c : Config) (image : List Byte) (pc : Addr) : List Byte :=
  (([0, 1, 2] : List Nat).filter fun k => inWindow c image (pc.toNat + k)).map fun k => progRead c image (pc.toNat + k)

/-- Fetch and decode at `pc`, with the operand check: an instruction that lacks bytes inside the window raises
OperandPastImageEnd with the opcode's address (R122, R123, R127). -/
def fetch (c : Config) (image : List Byte) (pc : Addr) : Except Fault Instr :=
  match decode c (fetchBytes c image pc) with
  | .ok (i, _) => .ok i
  | .error _ => .error (.operandPastImageEnd pc)

/-! ### Taking the exception -/

/-- Raising ProgrammingError (R274, R279): the terminated bit is set and the cause and recorded value are kept with it.
No register saves a state, no mode or mask changes and control goes nowhere; there is no return from it (R280). -/
def terminate (s : State) (cause : Fault) : State := { s with fatal := some cause }

/-- The numeric code of a cause (R271). -/
def Fault.code : Fault → Nat
  | .addressOutOfRange _ => 16
  | .operandPastImageEnd _ => 17

end Sys2Proof.Machine
end

