-- ==== Sys2Proof/Machine/ControlTransfer.lean ====
section
/-! DEFINITION. The control transfer instruction (42_control_transfer.md). -/

namespace Sys2Proof.Machine

/-- `JMP $abs16` (R150): the target replaces the pc outright, the instruction is counted. -/
def execJmp (abs16 : Addr) (s : State) : Host.Outcome State Fault Refusal :=
  .next (countCycle (setPc s abs16))

end Sys2Proof.Machine
end

