-- ==== Sys2Proof/Machine/DataTransfer.lean ====
section
/-! DEFINITION. The data transfer instructions (41_data_transfer.md). -/

namespace Sys2Proof.Machine

/-- `LDA #imm8` (R140): A takes the immediate byte, the pc advances by 2, the instruction is counted. -/
def execLda (imm8 : Byte) (s : State) : Host.Outcome State Fault Refusal :=
  .next (countCycle (advancePc (setA s (immediate imm8)) 2))

/-- `STA $addr8` (R141): A goes to the MemoryImage byte the operand names, the pc advances by 2, the instruction is
counted. A bounds fault leaves all of it undone (R128). -/
def execSta (addr8 : Byte) (s : State) : Host.Outcome State Fault Refusal :=
  match memWrite s (effectiveAddr addr8) s.a with
  | .error f => .fault f
  | .ok s' => .next (countCycle (advancePc s' 2))

end Sys2Proof.Machine
end

