-- ==== Sys2Proof/Machine/UnknownOpcode.lean ====
section
/-! DEFINITION. The NOP class (43_unknown_opcodes.md): never an error, a trap or a halt (R161). -/

namespace Sys2Proof.Machine

/-- Any byte other than the three opcodes (R160): the pc advances by 1, the instruction is counted. Which byte it was has
no effect. -/
def execNop (_opcode : Byte) (s : State) : Host.Outcome State Fault Refusal :=
  .next (countCycle (advancePc s 1))

end Sys2Proof.Machine
end

