-- ==== Sys2Proof/Machine/Dispatch.lean ====
section
/-! DEFINITION. The execute part of a step: each class selects exactly one rule (40_fetch_decode.md R125). -/

namespace Sys2Proof.Machine

def exec (i : Instr) (s : State) : Host.Outcome State Fault Refusal :=
  match i with
  | .lda imm8 => Sys2Proof.Machine.execLda imm8 s
  | .sta addr8 => Sys2Proof.Machine.execSta addr8 s
  | .jmp abs16 => Sys2Proof.Machine.execJmp abs16 s
  | .nop opcode => Sys2Proof.Machine.execNop opcode s

end Sys2Proof.Machine
end

