-- ==== Sys2Proof/Machine/Step.lean ====
section
/-! DEFINITION. One interpreter step (40_fetch_decode.md R120): wrap, fetch and decode, operand check, execute and count. The spec
defines it on a runnable state only; elsewhere it is refused with the reason the tick would give (R190, log 2). -/

namespace Sys2Proof.Machine

/-- `Step` (R120). The state a fault leaves is `terminate (wrapPc s) cause` (R127, R274; `runBudget` in Tick.lean keeps it). -/
def step (s : State) : Host.Outcome State Fault Refusal :=
  if s.terminated then .refused .terminated
  else
    match s.prog with
    | none => .refused .notRunnable
    | some image =>
      match fetch s.cfg image (wrapPc s).pc with
      | .error f => .fault f
      | .ok i => exec i (wrapPc s)

/-- `s` with the three bytes of a table word as its whole ProgramImage and the pc at its first byte, so that the next step
fetches exactly that instruction. It stands for a load from outside the machine (log 3). -/
def State.withFetchWord (s : State) (nbits w : Nat) : State :=
  { s with prog := some (tableBytes nbits w), pc := s.cfg.entry }

end Sys2Proof.Machine
end

