-- ==== Sys2Proof/Machine/Assembler.lean ====
section
/-! DEFINITION. The assembler text of the spec (30_encoding.md R99, R100): `LDA #<v>`, `STA $<aa>`, `JMP $<aaaa>`, `.byte $<xx>`, and
`NOP` for `.byte $EA`. A number after `$` is hexadecimal, one without it decimal. Syntax has no effect on any state. -/

namespace Sys2Proof.Machine

/-- One statement with its operand not yet checked against its field. -/
inductive AsmStatement where
  | lda (v : Nat)
  | sta (addr : Nat)
  | jmp (addr : Nat)
  | byte (v : Nat)
  deriving DecidableEq, Repr

/-- The value of a digit character, decimal or hexadecimal. DESIGN CHOICE: R99 does not say in which case the digits above 9 are
written, so both cases are read, mixed too (log 22). -/
def digitValue (ch : Char) : Option Nat :=
  let n := ch.toNat
  if 48 ≤ n ∧ n ≤ 57 then some (n - 48)
  else if 65 ≤ n ∧ n ≤ 70 then some (n - 55)
  else if 97 ≤ n ∧ n ≤ 102 then some (n - 87)
  else none

/-- The number that digits of a base write, continuing from `acc`. -/
def digitsFrom (base : Nat) : Nat → List Char → Option Nat
  | acc, [] => some acc
  | acc, ch :: chs =>
    match digitValue ch with
    | some d => if d < base then digitsFrom base (acc * base + d) chs else none
    | none => none

/-- A number with at least one digit. -/
def parseDigits (base : Nat) : List Char → Option Nat
  | [] => none
  | ch :: chs => digitsFrom base 0 (ch :: chs)

/-- A number, hexadecimal after `$`, decimal without it. -/
def parseNumber : List Char → Option Nat
  | '$' :: chs => parseDigits 16 chs
  | chs => parseDigits 10 chs

/-- One statement of R99, or `NOP` (R100); none where the text has another form. -/
def parseStatement : List Char → Option AsmStatement
  | ['N', 'O', 'P'] => some (.byte 0xEA)
  | 'L' :: 'D' :: 'A' :: ' ' :: '#' :: chs => (parseNumber chs).map .lda
  | 'S' :: 'T' :: 'A' :: ' ' :: '$' :: chs => (parseDigits 16 chs).map .sta
  | 'J' :: 'M' :: 'P' :: ' ' :: '$' :: chs => (parseDigits 16 chs).map .jmp
  | '.' :: 'b' :: 'y' :: 't' :: 'e' :: ' ' :: '$' :: chs => (parseDigits 16 chs).map .byte
  | _ => none

/-- The instruction of a statement; none where the operand does not fit its field, or a `.byte` names an opcode value
(R99). -/
def AsmStatement.instr (c : Config) : AsmStatement → Option Instr
  | .lda v => if v < 256 then some (.lda (BitVec.ofNat 8 v)) else none
  | .sta addr => if addr < 256 then some (.sta (BitVec.ofNat 8 addr)) else none
  | .jmp addr => if addr < 65536 then some (.jmp (BitVec.ofNat 16 addr)) else none
  | .byte v =>
    if v < 256 ∧ (Instr.nop (BitVec.ofNat 8 v)).wf c = true then some (.nop (BitVec.ofNat 8 v)) else none

/-- The bytes of one statement. -/
def assemble (c : Config) (text : String) : Option (List Byte) :=
  match parseStatement text.toList with
  | some stmt => (stmt.instr c).map (encode c)
  | none => none

/-- The bytes of a list of statements, one after the other. -/
def assembleAll (c : Config) : List String → Option (List Byte)
  | [] => some []
  | text :: texts =>
    match assemble c text, assembleAll c texts with
    | some bytes, some rest => some (bytes ++ rest)
    | _, _ => none

end Sys2Proof.Machine
end

