-- ==== Sys2Proof/Machine/Render.lean ====
section
/-! DEFINITION. The Frame Renderer, the software PPU (47_frame_renderer.md). -/

namespace Sys2Proof.Machine

/-- The pixel at row `py`, column `px` with the block's top-left corner at column `x`, row `y` (R212). -/
def blockPixel (c : Config) (x y py px : Nat) : Rgb :=
  if (x ≤ px ∧ px < x + c.sprite) ∧ (y ≤ py ∧ py < y + c.sprite) then c.spriteColor else c.clearColor

/-- `Render(mem)` (R210 to R213): every pixel recomputed from the two position cells, row 0 on top. -/
def render (c : Config) (m : Memory) : Frame :=
  (List.range c.height).map fun py =>
    (List.range c.width).map fun px =>
      blockPixel c (Memory.read c m c.cellX).toNat (Memory.read c m c.cellY).toNat py px

/-- The pixel of a FrameBuffer at row `py`, column `px`, where there is one (R70). -/
def Frame.pixel (f : Frame) (py px : Nat) : Option Rgb :=
  match f[py]? with
  | none => none
  | some row => row[px]?

/-- The dimensions of R40: H rows of W pixels. -/
def Frame.sized (c : Config) (f : Frame) : Bool :=
  decide (f.length = c.height) && f.all fun row => decide (row.length = c.width)

/-- Bits 23:16 of a pixel (R214). -/
def Rgb.red (p : Rgb) : Byte := p.extractLsb' 16 8

/-- Bits 15:8 of a pixel (R214). -/
def Rgb.green (p : Rgb) : Byte := p.extractLsb' 8 8

/-- Bits 7:0 of a pixel (R214). -/
def Rgb.blue (p : Rgb) : Byte := p.extractLsb' 0 8

end Sys2Proof.Machine
end

