-- ==== Sys2Proof/Machine/Tick.lean ====
section
/-! DEFINITION. The tick pass (44_tick.md) and the governor's test (45_scheduler.md R191). -/

namespace Sys2Proof.Machine

/-- How a tick pass ends (R170, R176). -/
inductive PassOutcome where
  /-- Every part of the pass ran. -/
  | completed (s : State)
  /-- A ProgrammingError stopped it; the state is the terminated one. -/
  | faulted (s : State) (f : Fault)
  /-- A step had no meaning; no runnable state gives this. -/
  | refused (r : Refusal)
  deriving DecidableEq, Repr

/-- `clamp(v, lo, hi)` on mathematical integers (R11). -/
def clamp (v lo hi : Int) : Int := max lo (min hi v)

/-- Whether the button with this id is pressed (R39). -/
def pressed (s : State) (id : Nat) : Bool := s.input.getD id false

/-- One coordinate moved by STEP down for its one button and up for its other (R172). -/
def moveAlong (v stepSize : Int) (down up : Bool) : Int :=
  (if down then v - stepSize else v) + (if up then stepSize else 0)

/-- The X position after the update, from the one before (R172). -/
def movedX (s : State) (x : Byte) : Int :=
  clamp (moveAlong x.toNat s.cfg.stepSize (pressed s s.cfg.btnLeft) (pressed s s.cfg.btnRight))
    0 ((s.cfg.width : Int) - s.cfg.sprite)

/-- The Y position after the update, from the one before (R172). -/
def movedY (s : State) (y : Byte) : Int :=
  clamp (moveAlong y.toNat s.cfg.stepSize (pressed s s.cfg.btnUp) (pressed s s.cfg.btnDown))
    0 ((s.cfg.height : Int) - s.cfg.sprite)

/-- `PositionUpdate` (R172). Both cells are read before either is written, so a fault here leaves nothing written. -/
def positionUpdate (s : State) : Except Fault State :=
  match memRead s s.cfg.cellX, memRead s s.cfg.cellY with
  | .error f, _ => .error f
  | .ok _, .error f => .error f
  | .ok x, .ok y =>
    match memWrite s s.cfg.cellX (BitVec.ofInt 8 (movedX s x)) with
    | .error f => .error f
    | .ok s' => memWrite s' s.cfg.cellY (BitVec.ofInt 8 (movedY s y))

/-- `frame <- Render(mem)` (R174). -/
def drawFrame (s : State) : State := { s with frame := render s.cfg s.mem }

/-- `k` steps, stopping at a fault with the terminated state: the faulting step's wrap stays, its other writes do not happen
(R127, R170, R176, R274). -/
def runBudget : Nat → State → PassOutcome
  | 0, s => .completed s
  | k + 1, s =>
    match step s with
    | .next s' => runBudget k s'
    | .fault f => .faulted (terminate (wrapPc s) f) f
    | .refused r => .refused r

/-- `TickPass` (R170): BUDGET steps, one position update, one render. -/
def tickPass (s : State) : PassOutcome :=
  match runBudget s.cfg.budget s with
  | .completed s' =>
    match positionUpdate s' with
    | .ok s'' => .completed (drawFrame s'')
    | .error f => .faulted (terminate s' f) f
  | .faulted s' f => .faulted s' f
  | .refused r => .refused r

/-- The governor's test (R191): the time since the last executed tick is at least one interval. -/
def tickDue (c : Config) (last now : Millis) : Bool := decide (1000 ≤ (now.toNat - last.toNat) * c.tickHz)

end Sys2Proof.Machine
end

