-- ==== Sys2Proof/Machine/Commands.lean ====
section
/-! DEFINITION. The seven entry points of the core (49_host_interface.md R257), construction (70_reset_and_hazards.md R301) and runs
(R259). Each command's checks stand in the order of its pseudocode (60_exceptions.md R278). -/

namespace Sys2Proof.Machine

/-- What the host calls (R257, R258). -/
inductive Command where
  /-- `loadProgram(bytes)`; none is an absent argument (R250). -/
  | loadProgram (bytes : Option (List Byte))
  /-- `reset()` (R300). -/
  | reset
  /-- `setButton(id, pressed)`, the id any integer (R200, D33). -/
  | setButton (id : Int) (pressed : Bool)
  /-- `tick(nowMillis)` (R190). -/
  | tick (nowMillis : Millis)
  /-- `currentFrame()` (R256). -/
  | currentFrame
  /-- `saveState()` (R231). -/
  | saveState
  /-- `loadState(snapshot)` (R233). -/
  | loadState (snapshot : Snapshot)
  deriving DecidableEq, Repr

/-- The recoverable errors (R271, R272). -/
inductive HostError where
  | loadError
  | unavailable
  | incompatibleSnapshot
  deriving DecidableEq, Repr

/-- What a command returns (R13 (a), R258); it is all of the core's "status" (D36). -/
inductive Reply where
  | ok
  | okFrame (frame : Frame)
  | okSnapshot (snapshot : Snapshot)
  | err (e : HostError)
  deriving DecidableEq, Repr

/-- The three outcomes of a command (R13). -/
inductive CommandOutcome where
  | done (s : State) (reply : Reply)
  | fault (s : State) (f : Fault)
  | refused (r : Refusal)
  deriving DecidableEq, Repr

/-- The numeric code of a reply (R271). -/
def Reply.code : Reply → Nat
  | .ok => 0
  | .okFrame _ => 0
  | .okSnapshot _ => 0
  | .err .loadError => 1
  | .err .unavailable => 2
  | .err .incompatibleSnapshot => 3

/-- Construction (R301), refused for a configuration that breaks R10 (R276, D13). -/
def construct (c : Config) : Except Refusal State :=
  if c.wf then .ok (State.ofConfig c) else .error .badConfig

/-- Puts an image in place and zeroes the three well-known cells, in the order of R250. -/
def installImage (s : State) (image : List Byte) (reply : Reply) : CommandOutcome :=
  let s0 : State := { s with prog := some image }
  match memWrite s0 s.cfg.cellDir 0 with
  | .error f => .fault (terminate s0 f) f
  | .ok s1 =>
    match memWrite s1 s.cfg.cellX 0 with
    | .error f => .fault (terminate s1 f) f
    | .ok s2 =>
      match memWrite s2 s.cfg.cellY 0 with
      | .error f => .fault (terminate s2 f) f
      | .ok s3 => .done s3 reply

/-- `loadProgram` (R250 to R253). -/
def cmdLoadProgram (bytes : Option (List Byte)) (s : State) : CommandOutcome :=
  if s.terminated then .refused .terminated
  else
    let given := bytes.getD []
    if given.length = 0 then installImage s s.cfg.demoImage (.err .loadError)
    else if s.cfg.progMax < given.length then .refused .imageTooLarge
    else installImage s given .ok

/-- `reset` (R300): MemoryImage back to its reset contents, the ExecutionContext to zero. -/
def cmdReset (s : State) : CommandOutcome :=
  if s.terminated then .refused .terminated
  else .done { s with mem := [], pc := 0, a := 0, cycles := 0 } .ok

/-- `setButton` (R200): an id outside the buttons is ignored (R205). -/
def cmdSetButton (id : Int) (isPressed : Bool) (s : State) : CommandOutcome :=
  if s.terminated then .refused .terminated
  else if 0 ≤ id ∧ id < s.cfg.numButtons then .done { s with input := s.input.set id.toNat isPressed } .ok
  else .done s .ok

/-- An executed tick (R190, R191): the time is recorded, then the pass runs. -/
def executeTick (now : Millis) (s : State) : CommandOutcome :=
  match tickPass { s with lastTick := some now } with
  | .completed s' => .done s' .ok
  | .faulted s' f => .fault s' f
  | .refused r => .refused r

/-- `tick` (R190). -/
def cmdTick (now : Millis) (s : State) : CommandOutcome :=
  if s.terminated then .refused .terminated
  else if s.prog = none then .refused .notRunnable
  else
    match s.lastTick with
    | none => executeTick now s
    | some last =>
      if now.toNat < last.toNat then .refused .timeBackwards
      else if tickDue s.cfg last now then executeTick now s
      else .done s .ok

/-- `currentFrame` (R256). -/
def cmdCurrentFrame (s : State) : CommandOutcome :=
  if s.terminated then .refused .terminated else .done s (.okFrame s.frame)

/-- The snapshot of a state (R230, R231). -/
def snapshotOf (s : State) : Snapshot where
  mem := Memory.toBytes s.cfg s.mem
  pc := s.pc
  a := s.a
  cycles := s.cycles

/-- `saveState` (R231, R232). -/
def cmdSaveState (s : State) : CommandOutcome :=
  if s.terminated then .refused .terminated
  else if s.prog = none then .done s (.err .unavailable)
  else .done { s with slot := some (snapshotOf s) } (.okSnapshot (snapshotOf s))

/-- `loadState` (R233, R234). -/
def cmdLoadState (snap : Snapshot) (s : State) : CommandOutcome :=
  if s.terminated then .refused .terminated
  else if snap.mem.length ≠ s.cfg.memSize then .done s (.err .incompatibleSnapshot)
  else
    .done { s with mem := Memory.ofBytes s.cfg snap.mem, pc := snap.pc, a := snap.a, cycles := snap.cycles } .ok

/-- One host command, run to completion (R7, R13). -/
def command (cmd : Command) (s : State) : CommandOutcome :=
  match cmd with
  | .loadProgram bytes => cmdLoadProgram bytes s
  | .reset => cmdReset s
  | .setButton id isPressed => cmdSetButton id isPressed s
  | .tick now => cmdTick now s
  | .currentFrame => cmdCurrentFrame s
  | .saveState => cmdSaveState s
  | .loadState snap => cmdLoadState snap s

/-- How a run ends (R259). -/
inductive RunOutcome where
  /-- The end state and the replies in the order of the commands. -/
  | ended (s : State) (replies : List Reply)
  /-- The last command raised a ProgrammingError: the terminated state, never a successful end. -/
  | faulted (s : State) (f : Fault)
  /-- A command was refused: the run has no end state. -/
  | refused (r : Refusal)
  deriving DecidableEq, Repr

/-- A finite sequence of host commands (R259). A command after a fault is called on the terminated state, and refused.
DESIGN CHOICE: R259 defines a run from construction only; here the commands run from any state, and the empty sequence ends in the
state it starts in, a terminated one too (log 28). -/
def runCommands : List Command → State → RunOutcome
  | [], s => .ended s []
  | cmd :: cmds, s =>
    match command cmd s with
    | .done s' reply =>
      match runCommands cmds s' with
      | .ended s'' replies => .ended s'' (reply :: replies)
      | .faulted s'' f => .faulted s'' f
      | .refused r => .refused r
    | .fault s' f =>
      match cmds with
      | [] => .faulted s' f
      | _ :: _ => runCommands cmds s'
    | .refused r => .refused r

end Sys2Proof.Machine
end

