-- ==== Sys2Proof/Safety.lean ====
section
/-! DEFINITION. What counts as a legal state and a safe run, in the terms the claims use. -/

namespace Sys2Proof.Machine

/-- What the spec's record promises of every state (10_state.md R30): the configuration keeps R10, MemoryImage is in its
canonical form, the ProgramImage has 1 to PROG_MAX bytes (R38), InputState has NUM_BUTTONS entries (R39), FrameBuffer is H by W
(R40), and a snapshot in the slot holds MEM_SIZE bytes (R46). -/
structure State.Inv (s : State) : Prop where
  config : s.cfg.wf = true
  memory : Memory.wf s.cfg s.mem = true
  image : ∀ image, s.prog = some image → 1 ≤ image.length ∧ image.length ≤ s.cfg.progMax
  inputs : s.input.length = s.cfg.numButtons
  frame : Frame.sized s.cfg s.frame = true
  snapshot : ∀ snap, s.slot = some snap → snap.mem.length = s.cfg.memSize

/-- The clamp invariant's condition (44_tick.md R173): both position cells in range. -/
def State.PositionInRange (s : State) : Prop :=
  (Memory.read s.cfg s.mem s.cfg.cellX).toNat ≤ s.cfg.width - s.cfg.sprite ∧
    (Memory.read s.cfg s.mem s.cfg.cellY).toNat ≤ s.cfg.height - s.cfg.sprite

/-- A core that can be reached: the end of some run from construction, or the terminated state such a run ends in (R259). -/
def State.Reachable (s : State) : Prop :=
  ∃ c s0 cmds, construct c = .ok s0 ∧
    ((∃ replies, runCommands cmds s0 = .ended s replies) ∨ ∃ f, runCommands cmds s0 = .faulted s f)

/-- A run that ends without a fault or a refusal, in a state that is not terminated (R259, R274): the only kind a claim of success
may rest on. DESIGN CHOICE: it is asked of any start state, and the empty run from a terminated state is not safe (log 28). -/
def safeRun (cmds : List Command) (s : State) : Bool :=
  match runCommands cmds s with
  | .ended t _ => !t.terminated
  | .faulted _ _ => false
  | .refused _ => false

/-! ### Terms of the claims about single instructions and ticks -/

/-- Everything the interpreter does not write (40_fetch_decode.md R120, R128) is the same. -/
def State.SameHostState (s t : State) : Prop :=
  t.cfg = s.cfg ∧ t.prog = s.prog ∧ t.input = s.input ∧ t.frame = s.frame ∧ t.lastTick = s.lastTick ∧ t.slot = s.slot ∧
    t.fatal = s.fatal

/-- Every byte of MemoryImage reads as before. -/
def State.SameMemory (s t : State) : Prop :=
  ∀ addr, Memory.read t.cfg t.mem addr = Memory.read s.cfg s.mem addr

/-- Every byte of MemoryImage but the one at `stored` reads as before. -/
def State.SameMemoryExcept (s t : State) (stored : Nat) : Prop :=
  ∀ addr, addr ≠ stored → Memory.read t.cfg t.mem addr = Memory.read s.cfg s.mem addr

/-- `s` is runnable with this image, and its next step fetches its opcode at program address `w`, which is image byte `k`: the
pc inside the program window, ENTRY outside it (R120, R121, R66). -/
def State.FetchesAt (s : State) (image : List Byte) (w : Addr) (k : Nat) : Prop :=
  s.fatal = none ∧ s.prog = some image ∧ 1 ≤ image.length ∧
    w = (if s.cfg.entry.toNat ≤ s.pc.toNat ∧ s.pc.toNat < s.cfg.entry.toNat + image.length then s.pc else s.cfg.entry) ∧
    w.toNat = s.cfg.entry.toNat + k

/-- A tick at this time executes: the core is runnable, and it is the first tick or at least one interval has passed since the
last executed one (45_scheduler.md R190, R191). -/
def State.TickExecutes (s : State) (now : Millis) : Prop :=
  s.fatal = none ∧ s.prog ≠ none ∧
    (s.lastTick = none ∨ ∃ last, s.lastTick = some last ∧ last.toNat ≤ now.toNat ∧
      1000 ≤ (now.toNat - last.toNat) * s.cfg.tickHz)

end Sys2Proof.Machine
end

