-- ==== Sys2Proof/Certificates/Slice0/Obligations.lean ====
section
/-! DEFINITION. The statements for the provers, in the order of spec/. A configuration is part of the state (log 1), so a statement
about every state is about every configuration. -/

open Sys2Proof Sys2Proof.Machine

/-! ### 00 Scope and configuration -/

/-- R10: construction succeeds exactly on the configurations that satisfy (a) to (h), and refuses every other; the reference
configuration satisfies them all. The demo image of the reference configuration is a free value (log 10).
The constraints and the refusal are the spec's own decisions (D13 and those R10 names; log 13). -/
def Obligations.ConstructionRefusesBadConfigurations : Prop :=
  (∀ c : Config,
    let ok := (c.opcLdi ≠ c.opcSta ∧ c.opcLdi ≠ c.opcJmp ∧ c.opcSta ≠ c.opcJmp) ∧
      (c.cellX ≠ c.cellY ∧ c.cellX ≠ c.cellDir ∧ c.cellY ≠ c.cellDir ∧
        c.cellX < c.memSize ∧ c.cellY < c.memSize ∧ c.cellDir < c.memSize) ∧
      (c.btnUp ≠ c.btnDown ∧ c.btnUp ≠ c.btnLeft ∧ c.btnUp ≠ c.btnRight ∧
        c.btnDown ≠ c.btnLeft ∧ c.btnDown ≠ c.btnRight ∧ c.btnLeft ≠ c.btnRight ∧
        c.btnUp < c.numButtons ∧ c.btnDown < c.numButtons ∧ c.btnLeft < c.numButtons ∧ c.btnRight < c.numButtons) ∧
      (c.sprite ≤ c.width ∧ c.sprite ≤ c.height ∧ c.width - c.sprite ≤ 255 ∧ c.height - c.sprite ≤ 255) ∧
      (0 < c.entry.toNat ∧ c.entry.toNat ≤ 0xFFFF) ∧
      (1 ≤ c.demoImage.length ∧ c.demoImage.length ≤ 0x10000 - c.entry.toNat) ∧
      (1 ≤ c.tickHz ∧ 256 ≤ c.memSize ∧ c.memSize ≤ 65536) ∧
      (c.posResetX ≤ c.width - c.sprite ∧ c.posResetY ≤ c.height - c.sprite)
    (ok → construct c = .ok (State.ofConfig c)) ∧ (¬ ok → construct c = .error .badConfig)) ∧
  construct Config.reference = .ok State.reset

/-! ### 20 Memory -/

/-- R65, with R63 and R64 for what MemRead and MemWrite are: a write inside MemoryImage followed by a read gives the value written,
and leaves every other address as it was. -/
def Obligations.MemReadAfterMemWrite : Prop :=
  ∀ (s : State) (addr : Nat) (v : Byte), Memory.wf s.cfg s.mem = true → addr < s.cfg.memSize →
    ∃ t, memWrite s addr v = .ok t ∧ memRead t addr = .ok v ∧ Memory.wf t.cfg t.mem = true ∧
      ∀ other, other ≠ addr → memRead t other = memRead s other

/-- R63, R64: outside `[0, MEM_SIZE)` both accesses raise AddressOutOfRange with the address; inside, a read gives the byte and a
write answers a state that differs in MemoryImage only. -/
def Obligations.MemAccessOutOfRangeFaults : Prop :=
  ∀ (s : State) (addr : Nat) (v : Byte),
    (s.cfg.memSize ≤ addr →
      memRead s addr = .error (.addressOutOfRange addr) ∧ memWrite s addr v = .error (.addressOutOfRange addr)) ∧
    (addr < s.cfg.memSize →
      memRead s addr = .ok (Memory.read s.cfg s.mem addr) ∧
        ∃ m, memWrite s addr v = .ok { s with mem := m })

/-- R67, R62: whatever instruction a step runs, the ProgramImage is unchanged, and so is every MemoryImage byte a one-byte store
address cannot name. -/
def Obligations.StepWritesNoProgramAndNoHighMemory : Prop :=
  ∀ s t : State, step s = .next t →
    t.prog = s.prog ∧ ∀ addr, 256 ≤ addr → Memory.read t.cfg t.mem addr = Memory.read s.cfg s.mem addr

/-- R62 ("No instruction reads MemoryImage"): how a step ends, every other field of the state it answers, whether it stores, and the
address it stores to are the same whatever MemoryImage holds; a store is the model's own write of A below 256, and without one
MemoryImage is left as it was. -/
def Obligations.StepNeverReadsMemoryImage : Prop :=
  ∀ s : State,
    (∃ (t : State) (stored : Option Nat), (∀ addr, stored = some addr → addr < 256) ∧
      ∀ m : Memory, step { s with mem := m } = .next { t with mem :=
        match stored with
        | none => m
        | some addr => Memory.write s.cfg m addr s.a }) ∨
    (∃ f, ∀ m : Memory, step { s with mem := m } = .fault f) ∨
    ∃ r, ∀ m : Memory, step { s with mem := m } = .refused r

/-! ### 30 Encoding -/

/-- Words written out from the formats of R92 and the opcode values of R93, with each opcode's neighbours (R101). The opcode values
are the spec's own defaults, from general knowledge (log 5). -/
def Obligations.DecodesWordsOfEveryClass : Prop :=
  decode Config.reference [0xA9, 0x01, 0x85] = .ok (.lda 0x01, [0x85]) ∧
  decode Config.reference [0xA9, 0x85] = .ok (.lda 0x85, []) ∧
  decode Config.reference [0x85, 0x10] = .ok (.sta 0x10, []) ∧
  decode Config.reference [0x4C, 0x34, 0x12] = .ok (.jmp 0x1234, []) ∧
  decode Config.reference [0x4C, 0x00, 0x80] = .ok (.jmp 0x8000, []) ∧
  (∀ op ∈ ([0x00, 0x4B, 0x4D, 0x84, 0x86, 0xA8, 0xAA, 0xEA, 0xFF] : List Byte),
    decode Config.reference [op, 0x01] = .ok (.nop op, [0x01])) ∧
  decode Config.reference [0x4C, 0x00] = .error (.operandMissing .jmp)

/-- R101: the full opcode map under the default parameters.
The opcode values are the spec's own defaults (D1, log 5). -/
def Obligations.ReferenceOpcodeMap : Prop :=
  ∀ op : Byte, classOf Config.reference op =
    if op = 0x4C then .jmp else if op = 0x85 then .sta else if op = 0xA9 then .lda else .nop

/-- R91, R98: under every configuration, every opcode byte followed by enough bytes is an instruction of the length its opcode alone
decides; with fewer it is none. -/
def Obligations.LengthIsDecidedByOpcodeAlone : Prop :=
  ∀ (c : Config) (op : Byte) (rest : List Byte),
    let len := if op = c.opcLdi then 2 else if op = c.opcSta then 2 else if op = c.opcJmp then 3 else 1
    (len ≤ rest.length + 1 → ∃ i, decode c (op :: rest) = .ok (i, (op :: rest).drop len)) ∧
    (rest.length + 1 < len → ∀ r, decode c (op :: rest) ≠ .ok r)

/-- Every well-formed instruction, with every operand value, survives encoding and decoding, whatever bytes follow it (R92, R94 to
R97). -/
def Obligations.DecodeOfEncodeIsIdentity : Prop :=
  ∀ (c : Config) (i : Instr) (rest : List Byte), c.opcodesOk = true → i.wf c = true →
    decode c (encode c i ++ rest) = .ok (i, rest)

/-- Every word has one meaning: bytes that decode are the encoding of a well-formed instruction and the bytes left over. -/
def Obligations.EncodeOfDecodeIsIdentity : Prop :=
  ∀ (c : Config) (bytes rest : List Byte) (i : Instr), decode c bytes = .ok (i, rest) →
    i.wf c = true ∧ bytes = encode c i ++ rest

/-- R99, R100: each form with its number written out, with any count of leading zeros and its hexadecimal digits in either letter
case, assembles to the encoding of its instruction, and to nothing where the number does not fit its field or a `.byte` names an
opcode; a text that assembles at all is one well-formed instruction, which decodes back.
The syntax is the spec's own decision (D30, log 22); where R99 is silent, that either letter case and any count of leading zeros are
read is the model's choice (log 22). -/
def Obligations.AssembledTextDecodes : Prop :=
  ∀ c : Config,
    (∀ (v zeros : Nat) (hexDigits : List Char), hexDigits.map Char.toLower = List.replicate zeros '0' ++ Nat.toDigits 16 v →
      let dec := String.ofList (List.replicate zeros '0' ++ Nat.toDigits 10 v)
      let hex := String.ofList hexDigits
      let lda := if v < 256 then some (encode c (.lda (BitVec.ofNat 8 v))) else none
      assemble c ("LDA #" ++ dec) = lda ∧ assemble c ("LDA #$" ++ hex) = lda ∧
      assemble c ("STA $" ++ hex) = (if v < 256 then some (encode c (.sta (BitVec.ofNat 8 v))) else none) ∧
      assemble c ("JMP $" ++ hex) = (if v < 65536 then some (encode c (.jmp (BitVec.ofNat 16 v))) else none) ∧
      assemble c (".byte $" ++ hex) =
        (if v < 256 ∧ v ≠ c.opcLdi.toNat ∧ v ≠ c.opcSta.toNat ∧ v ≠ c.opcJmp.toNat then some [BitVec.ofNat 8 v] else none)) ∧
    assemble c "NOP" = assemble c ".byte $EA" ∧
    ∀ (text : String) (bytes : List Byte), c.opcodesOk = true → assemble c text = some bytes →
      ∃ i : Instr, i.wf c = true ∧ bytes = encode c i ∧ decode c bytes = .ok (i, [])

/-! ### 40 Fetch, decode and execute -/

/-- R120, R125: where the image bytes from the fetch address on decode to an instruction, the step is that instruction's exec on the
state with the pc at the fetch address; everything around it is the wrap. -/
def Obligations.StepRunsDecodedInstruction : Prop :=
  ∀ (s : State) (image : List Byte) (w : Addr) (k : Nat) (i : Instr) (rest : List Byte), s.FetchesAt image w k →
    decode s.cfg (image.drop k) = .ok (i, rest) → step s = exec i { s with pc := w }

/-- The same from the encoder's side: a well-formed instruction whose encoding stands in the image at the fetch address is the one
the step runs. -/
def Obligations.StepRunsEncodedInstruction : Prop :=
  ∀ (s : State) (before after : List Byte) (w : Addr) (i : Instr), s.cfg.opcodesOk = true → i.wf s.cfg = true →
    s.FetchesAt (before ++ encode s.cfg i ++ after) w before.length → step s = exec i { s with pc := w }

/-- R121: a pc outside the window, below it or past it, is as if it were ENTRY: the wrap is no fault, writes nothing but the pc and is
not counted.
The lazy wrap, from below too, is the spec's own decision (D4, log 11). -/
def Obligations.PcOutsideWindowWrapsToEntry : Prop :=
  ∀ (s : State) (image : List Byte), s.prog = some image →
    ¬ (s.cfg.entry.toNat ≤ s.pc.toNat ∧ s.pc.toNat < s.cfg.entry.toNat + image.length) →
    step s = step { s with pc := s.cfg.entry } ∧ wrapPc s = { s with pc := s.cfg.entry }

/-- R127, R274: the step faults with OperandPastImageEnd exactly when the opcode's class needs a byte past the image end, and the
state it leaves in a tick is the one before it with the wrap done and the terminated bit set with its cause, and nothing else.
The fault and the state it leaves are the spec's own decisions (D5, D23; log 12, log 19). -/
def Obligations.OperandPastImageEndFaults : Prop :=
  ∀ (s : State) (image : List Byte) (w : Addr) (k : Nat) (op : Byte), s.FetchesAt image w k → image[k]? = some op →
    (s.cfg.entry.toNat + image.length < w.toNat + (classOf s.cfg op).length →
      step s = .fault (.operandPastImageEnd w) ∧
        ∀ n, runBudget (n + 1) s =
          .faulted { s with pc := w, fatal := some (.operandPastImageEnd w) } (.operandPastImageEnd w)) ∧
    (w.toNat + (classOf s.cfg op).length ≤ s.cfg.entry.toNat + image.length →
      ∀ pc, step s ≠ .fault (.operandPastImageEnd pc))

/-- R130: at every opcode fetch the pc is inside the window, and a fetched instruction lies inside it whole.
The spec derives R130 from its own decisions D4 and D5 (log 11, log 12). -/
def Obligations.FetchStaysInsideWindow : Prop :=
  ∀ (c : Config) (image : List Byte) (pc : Addr), 1 ≤ image.length →
    c.entry.toNat ≤ (windowPc c image pc).toNat ∧ (windowPc c image pc).toNat < c.entry.toNat + image.length ∧
    ∀ i, fetch c image (windowPc c image pc) = .ok i →
      (windowPc c image pc).toNat + i.opClass.length ≤ c.entry.toNat + image.length

/-- R76, R129, R278: on a runnable legal state a step completes or raises OperandPastImageEnd at its fetch address; it is never
refused and never raises AddressOutOfRange.
The spec derives R76 and takes the operand fault as its own decision (D5, log 12). -/
def Obligations.RunnableStepCompletesOrLacksOperand : Prop :=
  ∀ (s : State) (image : List Byte) (w : Addr) (k : Nat), s.Inv → s.FetchesAt image w k →
    (∃ t, step s = .next t) ∨ step s = .fault (.operandPastImageEnd w)

/-- R126: every completed step, of any class, adds exactly 1 to the cycle counter, with or without a wrap.
The increment is the spec's own decision (D8, log 14). -/
def Obligations.CompletedStepCountsOnce : Prop :=
  ∀ s t : State, step s = .next t → t.cycles = s.cycles + 1

/-- R120: a step neither reads nor writes input, frame, lastTick and slot. -/
def Obligations.StepIgnoresHostSideState : Prop :=
  ∀ (s : State) (input : List Bool) (frame : Frame) (lastTick : Option Millis) (slot : Option Snapshot),
    step { s with input := input, frame := frame, lastTick := lastTick, slot := slot } =
      match step s with
      | .next t => .next { t with input := input, frame := frame, lastTick := lastTick, slot := slot }
      | .fault f => .fault f
      | .refused r => .refused r

/-! ### 41 Data transfer -/

/-- Result and frame of LDA (R140): A takes the immediate, the pc advances by 2 modulo 2^16, one cycle is counted; no byte of
MemoryImage and nothing else changes.
The count and the modulus are the spec's own decisions (D8, D3; log 14, log 11). -/
def Obligations.LdaLoadsItsImmediate : Prop :=
  ∀ (imm8 : Byte) (s : State), ∃ t, exec (.lda imm8) s = .next t ∧
    t.a = imm8 ∧ t.pc.toNat = (s.pc.toNat + 2) % 65536 ∧ t.cycles = s.cycles + 1 ∧ s.SameMemory t ∧ s.SameHostState t

/-- R140 whole, from the image bytes: with the opcode byte OPC_LDI at the fetch address, the next image byte goes to A; where there is
none, OperandPastImageEnd.
The operand fault, the count and the modulus are the spec's own decisions (D5, D8, D3; log 12, log 14, log 11). -/
def Obligations.LdaStepFromImage : Prop :=
  ∀ (s : State) (image : List Byte) (w : Addr) (k : Nat), s.FetchesAt image w k → image[k]? = some s.cfg.opcLdi →
    (∀ imm8, image[k + 1]? = some imm8 →
      ∃ t, step s = .next t ∧ t.a = imm8 ∧ t.pc.toNat = (w.toNat + 2) % 65536 ∧ t.cycles = s.cycles + 1 ∧
        s.SameMemory t ∧ s.SameHostState t) ∧
    (s.cfg.entry.toNat + image.length < w.toNat + 2 → step s = .fault (.operandPastImageEnd w))

/-- Result and frame of STA (R141, R95): the byte at the zero-extended operand takes A, every other byte reads as before, A is only
read.
The zero-extension, the count and the modulus are the spec's own decisions (D9, D8, D3; log 24, log 14, log 11). -/
def Obligations.StaStoresTheAccumulator : Prop :=
  ∀ (addr8 : Byte) (s : State), Memory.wf s.cfg s.mem = true → 256 ≤ s.cfg.memSize →
    effectiveAddr addr8 = addr8.toNat ∧
    ∃ t, exec (.sta addr8) s = .next t ∧
      Memory.read t.cfg t.mem (effectiveAddr addr8) = s.a ∧ s.SameMemoryExcept t (effectiveAddr addr8) ∧
      t.a = s.a ∧ t.pc.toNat = (s.pc.toNat + 2) % 65536 ∧ t.cycles = s.cycles + 1 ∧ s.SameHostState t

/-- R76, R129, R282: on a legal state every instruction completes, STA's address lies inside MemoryImage, and no step raises
AddressOutOfRange. The spec derives R76; that every instruction is legal at every time is its own decision (D28, log 27), and so is
the count (D8, log 14). -/
def Obligations.LegalStatesStopNoInstruction : Prop :=
  ∀ s : State, s.Inv →
    (∀ i : Instr, ∃ t, exec i s = .next t ∧ t.cycles = s.cycles + 1 ∧ t.Inv) ∧
    (∀ addr8 : Byte, effectiveAddr addr8 < s.cfg.memSize) ∧
    ∀ addr, step s ≠ .fault (.addressOutOfRange addr)

/-- R141 whole, from the image bytes.
The zero-extension, the operand fault, the count and the modulus are the spec's own decisions (D9, D5, D8, D3; log 24, log 12,
log 14, log 11). -/
def Obligations.StaStepFromImage : Prop :=
  ∀ (s : State) (image : List Byte) (w : Addr) (k : Nat), s.Inv → s.FetchesAt image w k →
    image[k]? = some s.cfg.opcSta →
    (∀ addr8, image[k + 1]? = some addr8 →
      ∃ t, step s = .next t ∧ Memory.read t.cfg t.mem addr8.toNat = s.a ∧ s.SameMemoryExcept t addr8.toNat ∧
        t.a = s.a ∧ t.pc.toNat = (w.toNat + 2) % 65536 ∧ t.cycles = s.cycles + 1 ∧ s.SameHostState t) ∧
    (s.cfg.entry.toNat + image.length < w.toNat + 2 → step s = .fault (.operandPastImageEnd w))

/-! ### 42 Control transfer -/

/-- Result and frame of JMP (R150): the target replaces the pc outright, and nothing else changes but the cycle counter.
The count is the spec's own decision (D8, log 14). -/
def Obligations.JmpReplacesThePc : Prop :=
  ∀ (abs16 : Addr) (s : State), ∃ t, exec (.jmp abs16) s = .next t ∧
    t.pc = abs16 ∧ t.a = s.a ∧ t.cycles = s.cycles + 1 ∧ s.SameMemory t ∧ s.SameHostState t

/-- R150 whole, from the image bytes: the target is the low byte plus 256 times the high byte, whatever its value.
The operand fault and the count are the spec's own decisions (D5, D8; log 12, log 14). -/
def Obligations.JmpStepFromImage : Prop :=
  ∀ (s : State) (image : List Byte) (w : Addr) (k : Nat), s.cfg.opcodesOk = true → s.FetchesAt image w k →
    image[k]? = some s.cfg.opcJmp →
    (∀ lo hi, image[k + 1]? = some lo → image[k + 2]? = some hi →
      ∃ t, step s = .next t ∧ t.pc.toNat = lo.toNat + 256 * hi.toNat ∧ t.a = s.a ∧ t.cycles = s.cycles + 1 ∧
        s.SameMemory t ∧ s.SameHostState t) ∧
    (s.cfg.entry.toNat + image.length < w.toNat + 3 → step s = .fault (.operandPastImageEnd w))

/-! ### 43 Unknown opcodes -/

/-- Result and frame of NOP (R160): the pc advances by 1 modulo 2^16 and one cycle is counted, whichever byte it was.
The count and the modulus are the spec's own decisions (D8, D3; log 14, log 11). -/
def Obligations.NopOnlyAdvances : Prop :=
  ∀ (op : Byte) (s : State), (∃ t, exec (.nop op) s = .next t ∧
    t.pc.toNat = (s.pc.toNat + 1) % 65536 ∧ t.a = s.a ∧ t.cycles = s.cycles + 1 ∧ s.SameMemory t ∧ s.SameHostState t) ∧
    ∀ op', exec (.nop op') s = exec (.nop op) s

/-- R160, R161 from the image bytes: a byte that is none of the three opcodes never stops the core, the last byte of the image
included.
The count and the modulus are the spec's own decisions (D8, D3; log 14, log 11). -/
def Obligations.UnknownOpcodeStepNeverStops : Prop :=
  ∀ (s : State) (image : List Byte) (w : Addr) (k : Nat) (op : Byte), s.FetchesAt image w k → image[k]? = some op →
    op ≠ s.cfg.opcLdi → op ≠ s.cfg.opcSta → op ≠ s.cfg.opcJmp →
    ∃ t, step s = .next t ∧ t.pc.toNat = (w.toNat + 1) % 65536 ∧ t.a = s.a ∧ t.cycles = s.cycles + 1 ∧
      s.SameMemory t ∧ s.SameHostState t

/-! ### 44 The tick pass -/

/-- R172: each pressed directional button moves its coordinate by STEP, each coordinate is clamped, both cells are written back, and no
other byte and nothing else changes.
The signs are the spec's own decision (D12, log 8). -/
def Obligations.PositionUpdateMovesAndClamps : Prop :=
  ∀ s : State, s.Inv → ∃ t, positionUpdate s = .ok t ∧
    ((Memory.read t.cfg t.mem s.cfg.cellX).toNat : Int) =
      max 0 (min ((s.cfg.width : Int) - s.cfg.sprite)
        ((Memory.read s.cfg s.mem s.cfg.cellX).toNat
          - (if s.input[s.cfg.btnLeft]? = some true then (s.cfg.stepSize : Int) else 0)
          + (if s.input[s.cfg.btnRight]? = some true then (s.cfg.stepSize : Int) else 0))) ∧
    ((Memory.read t.cfg t.mem s.cfg.cellY).toNat : Int) =
      max 0 (min ((s.cfg.height : Int) - s.cfg.sprite)
        ((Memory.read s.cfg s.mem s.cfg.cellY).toNat
          - (if s.input[s.cfg.btnUp]? = some true then (s.cfg.stepSize : Int) else 0)
          + (if s.input[s.cfg.btnDown]? = some true then (s.cfg.stepSize : Int) else 0))) ∧
    (∀ addr, addr ≠ s.cfg.cellX → addr ≠ s.cfg.cellY →
      Memory.read t.cfg t.mem addr = Memory.read s.cfg s.mem addr) ∧
    t.pc = s.pc ∧ t.a = s.a ∧ t.cycles = s.cycles ∧ s.SameHostState t

/-- R173: after every executed tick that raised no fault both position cells are in range, whatever they held before.
The spec derives R173 from R172. -/
def Obligations.ExecutedTickClampsPosition : Prop :=
  ∀ (s t : State) (now : Millis) (reply : Reply), s.Inv → s.TickExecutes now →
    command (.tick now) s = .done t reply → t.PositionInRange

/-- R171, R191: an executed tick that raised no fault adds exactly BUDGET to the cycle counter, whatever the program, the time and the
input, and records its time as the last executed tick's.
The unit of count and the recorded time are the spec's own decisions (D8, D14; log 14, log 15). -/
def Obligations.ExecutedTickCountsBudget : Prop :=
  ∀ (s t : State) (now : Millis) (reply : Reply), s.TickExecutes now →
    command (.tick now) s = .done t reply → t.cycles = s.cycles + s.cfg.budget ∧ t.lastTick = some now

/-- R174, R216: after every executed tick the frame is the render of the memory as the position update left it.
When the frame is drawn is the spec's own decision (D16, log 17). -/
def Obligations.ExecutedTickDrawsFinalMemory : Prop :=
  ∀ (s t : State) (now : Millis) (reply : Reply), s.TickExecutes now →
    command (.tick now) s = .done t reply → t.frame = render t.cfg t.mem

/-- R176, R274, R128: where the steps of an executed tick reach one that faults, the command ends with that fault at the state those
steps left, with the faulting step's wrap and the terminated bit: no further step, no position update, no render.
What is left of the tick is the spec's own decision (D34, D23; log 25, log 19). -/
def Obligations.FaultingStepEndsTick : Prop :=
  ∀ (s u : State) (now : Millis) (j : Nat) (f : Fault), s.TickExecutes now → j < s.cfg.budget →
    runBudget j { s with lastTick := some now } = .completed u → step u = .fault f →
    command (.tick now) s = .fault { wrapPc u with fatal := some f } f ∧ u.frame = s.frame

/-- R177, R176: the tick pass does not read lastTick or slot, and writes neither them nor prog, input and cfg, whether it completes
or a step of it faults; a pass that faults does not draw.
The spec derives R177; what is left of a faulting pass is its own decision (D34, log 25). -/
def Obligations.TickPassIgnoresSchedulerAndSlot : Prop :=
  ∀ (s : State) (lastTick : Option Millis) (slot : Option Snapshot),
    (match tickPass s with
      | .completed t => tickPass { s with lastTick := lastTick, slot := slot } =
          .completed { t with lastTick := lastTick, slot := slot }
      | .faulted t f => tickPass { s with lastTick := lastTick, slot := slot } =
          .faulted { t with lastTick := lastTick, slot := slot } f
      | .refused r => tickPass { s with lastTick := lastTick, slot := slot } = .refused r) ∧
    (∀ t, tickPass s = .completed t →
      t.prog = s.prog ∧ t.input = s.input ∧ t.lastTick = s.lastTick ∧ t.slot = s.slot ∧ t.cfg = s.cfg) ∧
    ∀ t f, tickPass s = .faulted t f →
      t.prog = s.prog ∧ t.input = s.input ∧ t.lastTick = s.lastTick ∧ t.slot = s.slot ∧ t.cfg = s.cfg ∧ t.frame = s.frame

/-- An image of unknown opcodes only: every executed tick completes, and moves the position by the pressed buttons from where it
stood (R170, R172, R175; the vectors T1 to T15).
The signs and the increment are the spec's own decisions (D12, D8; log 8, log 14). -/
def Obligations.NopImageTickMovesPosition : Prop :=
  ∀ (s : State) (image : List Byte) (now : Millis), s.Inv → s.TickExecutes now → s.prog = some image →
    (∀ op ∈ image, op ≠ s.cfg.opcLdi ∧ op ≠ s.cfg.opcSta ∧ op ≠ s.cfg.opcJmp) →
    ∃ t, command (.tick now) s = .done t .ok ∧
      ((Memory.read t.cfg t.mem s.cfg.cellX).toNat : Int) =
        movedX s (Memory.read s.cfg s.mem s.cfg.cellX) ∧
      ((Memory.read t.cfg t.mem s.cfg.cellY).toNat : Int) =
        movedY s (Memory.read s.cfg s.mem s.cfg.cellY) ∧
      (∀ addr, addr ≠ s.cfg.cellX → addr ≠ s.cfg.cellY →
        Memory.read t.cfg t.mem addr = Memory.read s.cfg s.mem addr) ∧
      t.a = s.a ∧ t.cycles = s.cycles + s.cfg.budget

/-! ### 45 The scheduler -/

/-- R191: with TICK_HZ 60 a later tick executes exactly when at least 17 ms have passed since the last executed one; before that it
changes nothing.
The exact test is the spec's own decision (D14, log 15). -/
def Obligations.GovernorThresholdIs17AtSixtyHertz : Prop :=
  ∀ (s : State) (last now : Millis), s.fatal = none → s.prog ≠ none → s.cfg.tickHz = 60 → s.lastTick = some last →
    last.toNat ≤ now.toNat →
    (now.toNat - last.toNat < 17 → command (.tick now) s = .done s .ok) ∧
    (17 ≤ now.toNat - last.toNat → command (.tick now) s = executeTick now s ∧ s.TickExecutes now)

/-- R190: the checks of tick in their order, for every TICK_HZ.
The order and the refusals are the spec's own decisions (D14, D15, D32; log 15, log 16, log 25). -/
def Obligations.TickChecksInOrder : Prop :=
  ∀ (s : State) (now : Millis),
    (s.fatal ≠ none → command (.tick now) s = .refused .terminated) ∧
    (s.fatal = none → s.prog = none → command (.tick now) s = .refused .notRunnable) ∧
    (s.fatal = none → s.prog ≠ none → s.lastTick = none → command (.tick now) s = executeTick now s) ∧
    (∀ last, s.fatal = none → s.prog ≠ none → s.lastTick = some last →
      (now.toNat < last.toNat → command (.tick now) s = .refused .timeBackwards) ∧
      (last.toNat ≤ now.toNat → (now.toNat - last.toNat) * s.cfg.tickHz < 1000 → command (.tick now) s = .done s .ok) ∧
      (last.toNat ≤ now.toNat → 1000 ≤ (now.toNat - last.toNat) * s.cfg.tickHz →
        command (.tick now) s = executeTick now s))

/-- R192: however much time has passed, one tick call runs at most one pass: it changes nothing, or it ends as the one pass from the
state with its time recorded ends, completed with BUDGET counted or faulted.
The recorded time and the count are the spec's own decisions (D14, D8; log 15, log 14). -/
def Obligations.AtMostOnePassPerTick : Prop :=
  ∀ (s : State) (now : Millis),
    (∀ t reply, command (.tick now) s = .done t reply →
      t = s ∨ (tickPass { s with lastTick := some now } = .completed t ∧
        t.cycles = s.cycles + s.cfg.budget ∧ t.lastTick = some now)) ∧
    ∀ t f, command (.tick now) s = .fault t f → tickPass { s with lastTick := some now } = .faulted t f

/-! ### 46 The input latch -/

/-- R200, R205: setButton writes the one entry of a valid id and nothing else; an id outside the buttons, negative ones included,
changes nothing.
That an id is any integer is the spec's own decision (D33, log 25). -/
def Obligations.SetButtonWritesOneEntry : Prop :=
  ∀ (s : State) (id : Int) (isPressed : Bool), s.Inv → s.fatal = none →
    ∃ t, command (.setButton id isPressed) s = .done t .ok ∧ t = { s with input := t.input } ∧
      t.input.length = s.input.length ∧
      (∀ b : Nat, b < s.cfg.numButtons → t.input[b]? = if (b : Int) = id then some isPressed else s.input[b]?) ∧
      ((id < 0 ∨ (s.cfg.numButtons : Int) ≤ id) → t = s)

/-! ### 47 The frame renderer -/

/-- R212: every pixel of the H by W buffer is SPRITE_COLOR inside the SPRITE by SPRITE block whose top-left corner is at the position
cells, and CLEAR_COLOR elsewhere.
Size and anchor of the block are the spec's own decision (D18, log 17). -/
def Obligations.RenderPaintsTheBlock : Prop :=
  ∀ (c : Config) (m : Memory), Frame.sized c (render c m) = true ∧
    ∀ py px, py < c.height → px < c.width →
      Frame.pixel (render c m) py px =
        some (if (Memory.read c m c.cellX).toNat ≤ px ∧ px < (Memory.read c m c.cellX).toNat + c.sprite ∧
            (Memory.read c m c.cellY).toNat ≤ py ∧ py < (Memory.read c m c.cellY).toNat + c.sprite
          then c.spriteColor else c.clearColor)

/-- R213: with the position in range and two different colours, exactly SPRITE * SPRITE pixels are SPRITE_COLOR.
It rests on the same decision (D18, log 17). -/
def Obligations.WholeBlockIsVisible : Prop :=
  ∀ s : State, s.Inv → s.PositionInRange → s.cfg.clearColor ≠ s.cfg.spriteColor →
    (render s.cfg s.mem).flatten.count s.cfg.spriteColor = s.cfg.sprite * s.cfg.sprite

/-! ### 48 The snapshot engine -/

/-- R231, R232: saveState on a loaded core returns a snapshot of MEM_SIZE bytes that are the bytes of MemoryImage, with the
ExecutionContext, keeps it in the slot and changes nothing else; with no program it reports Unavailable and changes nothing.
The slot is the spec's own decision (D22, log 18). -/
def Obligations.SaveStateCapturesMemoryAndContext : Prop :=
  ∀ s : State, s.fatal = none →
    (s.prog = none → command .saveState s = .done s (.err .unavailable)) ∧
    (s.prog ≠ none → ∃ snap : Snapshot,
      command .saveState s = .done { s with slot := some snap } (.okSnapshot snap) ∧
        snap.mem.length = s.cfg.memSize ∧
        (∀ addr, addr < s.cfg.memSize → snap.mem[addr]? = some (Memory.read s.cfg s.mem addr)) ∧
        snap.pc = s.pc ∧ snap.a = s.a ∧ snap.cycles = s.cycles)

/-- R233, R234: loadState of a snapshot of MEM_SIZE bytes restores every byte and the ExecutionContext and nothing else, whatever its
pc and cycle count, with or without a program; of another length it reports IncompatibleSnapshot and changes nothing.
That the length is the only check is the spec's own decision (D21, log 18). -/
def Obligations.LoadStateRestoresMemoryAndContext : Prop :=
  ∀ (s : State) (snap : Snapshot), s.fatal = none →
    (snap.mem.length ≠ s.cfg.memSize → command (.loadState snap) s = .done s (.err .incompatibleSnapshot)) ∧
    (snap.mem.length = s.cfg.memSize →
      ∃ t, command (.loadState snap) s = .done t .ok ∧
        (∀ addr, addr < s.cfg.memSize → snap.mem[addr]? = some (Memory.read t.cfg t.mem addr)) ∧
        Memory.wf t.cfg t.mem = true ∧ t.pc = snap.pc ∧ t.a = snap.a ∧ t.cycles = snap.cycles ∧ s.SameHostState t)

/-- R236: a snapshot loaded at once leaves the whole state as saveState left it, and any successful load makes mem, pc, a and cycles
the snapshot's fields, so that saving again returns the same snapshot.
The slot is the spec's own decision (D22, log 18). -/
def Obligations.SnapshotRoundTrip : Prop :=
  (∀ s : State, s.Inv → s.fatal = none → s.prog ≠ none →
    ∃ snap, command .saveState s = .done { s with slot := some snap } (.okSnapshot snap) ∧
      command (.loadState snap) { s with slot := some snap } = .done { s with slot := some snap } .ok) ∧
  ∀ (s t : State) (snap : Snapshot), command (.loadState snap) s = .done t .ok →
    (∀ addr, addr < s.cfg.memSize → snap.mem[addr]? = some (Memory.read t.cfg t.mem addr)) ∧
    t.pc = snap.pc ∧ t.a = snap.a ∧ t.cycles = snap.cycles ∧
    (s.prog ≠ none → command .saveState t = .done { t with slot := some snap } (.okSnapshot snap))

/-! ### 49 The host interface -/

/-- R250, R252, R253: loadProgram of a fitting image installs it, zeroes the three cells and changes nothing else; of an image longer
than PROG_MAX it is refused.
What stays unchanged and the size limit are the spec's own decisions (D20, D6; log 18, log 13). -/
def Obligations.LoadProgramInstallsImage : Prop :=
  ∀ (s : State) (bytes : List Byte), s.Inv → s.fatal = none → 1 ≤ bytes.length →
    (bytes.length ≤ 0x10000 - s.cfg.entry.toNat →
      ∃ t, command (.loadProgram (some bytes)) s = .done t .ok ∧ t.prog = some bytes ∧
        (∀ addr, Memory.read t.cfg t.mem addr =
          if addr = s.cfg.cellX ∨ addr = s.cfg.cellY ∨ addr = s.cfg.cellDir then 0
          else Memory.read s.cfg s.mem addr) ∧
        t.pc = s.pc ∧ t.a = s.a ∧ t.cycles = s.cycles ∧ t.input = s.input ∧ t.frame = s.frame ∧
        t.lastTick = s.lastTick ∧ t.slot = s.slot ∧ t.fatal = none ∧ t.cfg = s.cfg) ∧
    (0x10000 - s.cfg.entry.toNat < bytes.length → command (.loadProgram (some bytes)) s = .refused .imageTooLarge)

/-- R251, R253: an empty or absent image installs DEMO_IMAGE, whatever it is, zeroes the three cells, changes nothing else, reports
LoadError, and leaves the core runnable, so that saveState succeeds.
The image is the spec's OPEN parameter (D19, log 10); what stays unchanged is its own decision (D20, log 18). -/
def Obligations.EmptyLoadInstallsDemoImage : Prop :=
  ∀ (s : State) (bytes : Option (List Byte)), s.Inv → s.fatal = none → (bytes = none ∨ bytes = some []) →
    ∃ t, command (.loadProgram bytes) s = .done t (.err .loadError) ∧ t.prog = some s.cfg.demoImage ∧
      (∀ addr, Memory.read t.cfg t.mem addr =
        if addr = s.cfg.cellX ∨ addr = s.cfg.cellY ∨ addr = s.cfg.cellDir then 0
        else Memory.read s.cfg s.mem addr) ∧
      t.pc = s.pc ∧ t.a = s.a ∧ t.cycles = s.cycles ∧ t.input = s.input ∧ t.frame = s.frame ∧
      t.lastTick = s.lastTick ∧ t.slot = s.slot ∧ t.fatal = none ∧ t.cfg = s.cfg ∧ t.runnable = true ∧
      ∃ u snap, command .saveState t = .done u (.okSnapshot snap)

/-- R256: currentFrame returns the frame and changes nothing.
The spec's own decisions D16 and D23 (log 17, log 19). -/
def Obligations.CurrentFrameReturnsFrame : Prop :=
  ∀ s : State, (s.fatal = none → command .currentFrame s = .done s (.okFrame s.frame)) ∧
    (s.fatal ≠ none → command .currentFrame s = .refused .terminated)

/-- The "written by" column of R44's table, every row of it, for the seven commands (R36 to R43, R62): whether a command ends with a
result or with a fault, it writes no field outside its row; the terminated bit is written by a fault only, and the configuration by
none. Of MemoryImage loadProgram writes the three cells only, and a tick the position cells and what a STA can name.
The spec derives R44; what reset, the loads and the snapshots leave is its own decision (D20 to D25; log 18, log 20). -/
def Obligations.CommandsWriteOnlyTheirState : Prop :=
  ∀ (cmd : Command) (s t : State),
    ((∃ reply, command cmd s = .done t reply) ∨ ∃ f, command cmd s = .fault t f) →
    ((∃ reply, command cmd s = .done t reply) → t.fatal = s.fatal) ∧
    (∀ f, command cmd s = .fault t f → t.fatal = some f) ∧
    t.cfg = s.cfg ∧
    ((∀ bytes, cmd ≠ .loadProgram bytes) → t.prog = s.prog) ∧
    ((∀ id isPressed, cmd ≠ .setButton id isPressed) → t.input = s.input) ∧
    ((∀ now, cmd ≠ .tick now) → t.frame = s.frame ∧ t.lastTick = s.lastTick) ∧
    (cmd ≠ .saveState → t.slot = s.slot) ∧
    (cmd ≠ .reset → (∀ now, cmd ≠ .tick now) → (∀ snap, cmd ≠ .loadState snap) →
      t.pc = s.pc ∧ t.a = s.a ∧ t.cycles = s.cycles) ∧
    (cmd ≠ .reset → (∀ snap, cmd ≠ .loadState snap) → ∀ addr,
      ((∀ now, cmd ≠ .tick now) ∨ (256 ≤ addr ∧ addr ≠ s.cfg.cellX ∧ addr ≠ s.cfg.cellY)) →
      ((∀ bytes, cmd ≠ .loadProgram bytes) ∨ (addr ≠ s.cfg.cellX ∧ addr ≠ s.cfg.cellY ∧ addr ≠ s.cfg.cellDir)) →
      Memory.read t.cfg t.mem addr = Memory.read s.cfg s.mem addr)

/-! ### 60 Faults -/

/-- R274, R279: raising a fault sets the terminated bit with its cause and changes nothing else, and a terminated core refuses every
command and every step, so no run of at least one command from it has an end state (the empty run ends where it starts, log 28).
What a terminated core does is the spec's own decision (D23, log 19). -/
def Obligations.TerminatedCoreTakesNoCommand : Prop :=
  (∀ (s : State) (f : Fault), (terminate s f).terminated = true ∧ terminate s f = { s with fatal := some f }) ∧
  ∀ s : State, s.terminated = true → step s = .refused .terminated ∧
    ∀ (cmd : Command) (cmds : List Command),
      command cmd s = .refused .terminated ∧ runCommands (cmd :: cmds) s = .refused .terminated

/-- R273, R76: on a legal state the only fault of any command is OperandPastImageEnd, raised by a tick; the terminated state it ends in
records it.
The spec derives R76; the operand fault is its own decision (D5, log 12). -/
def Obligations.OnlyTicksFaultAndOnlyOnOperands : Prop :=
  ∀ (cmd : Command) (s t : State) (f : Fault), s.Inv → command cmd s = .fault t f →
    (∃ now, cmd = .tick now) ∧ (∃ pc, f = .operandPastImageEnd pc) ∧ t.fatal = some f

/-- R271: the numeric codes of every reply and cause.
The numbers are the spec's own decision (D27, log 23); that an Ok with a frame or a
snapshot has the code of Ok is the model's choice (log 23). -/
def Obligations.ErrorCodes : Prop :=
  Reply.code .ok = 0 ∧ (∀ frame, Reply.code (.okFrame frame) = 0) ∧ (∀ snap, Reply.code (.okSnapshot snap) = 0) ∧
    Reply.code (.err .loadError) = 1 ∧ Reply.code (.err .unavailable) = 2 ∧
    Reply.code (.err .incompatibleSnapshot) = 3 ∧ (∀ addr, Fault.code (.addressOutOfRange addr) = 16) ∧
    ∀ pc, Fault.code (.operandPastImageEnd pc) = 17

/-! ### 70 Reset -/

/-- R300, R302: on every state that is not terminated reset zeroes MemoryImage and the ExecutionContext, puts the position cells at
POS_RESET, and changes nothing else, regardless of the prior state.
What reset leaves alone is the spec's own decision (D24, D25; log 20). -/
def Obligations.ResetZeroesMemoryAndContext : Prop :=
  ∀ s : State, s.cfg.wf = true → s.fatal = none →
    ∃ t, command .reset s = .done t .ok ∧
      (Memory.read t.cfg t.mem s.cfg.cellX).toNat = s.cfg.posResetX ∧
      (Memory.read t.cfg t.mem s.cfg.cellY).toNat = s.cfg.posResetY ∧
      (∀ addr, addr ≠ s.cfg.cellX → addr ≠ s.cfg.cellY → Memory.read t.cfg t.mem addr = 0) ∧
      t.pc = 0 ∧ t.a = 0 ∧ t.cycles = 0 ∧ s.SameHostState t

/-- R303: after reset the first step fetches at ENTRY, whatever image is loaded.
The wrap from below is the spec's own decision (D4, log 11). -/
def Obligations.FirstStepAfterResetFetchesAtEntry : Prop :=
  ∀ (s t : State) (image : List Byte), s.Inv → s.prog = some image → command .reset s = .done t .ok →
    t.FetchesAt image s.cfg.entry 0 ∧ step t = step { t with pc := s.cfg.entry }

/-- R301, R304: every field of a newly constructed core.
That construction includes a reset is the spec's own decision (D26, log 20). -/
def Obligations.ConstructionState : Prop :=
  ∀ c : Config, c.wf = true → ∃ s, construct c = .ok s ∧ s.cfg = c ∧ s.prog = none ∧ s.pc = 0 ∧ s.a = 0 ∧ s.cycles = 0 ∧
    (Memory.read c s.mem c.cellX).toNat = c.posResetX ∧ (Memory.read c s.mem c.cellY).toNat = c.posResetY ∧
    (∀ addr, addr ≠ c.cellX → addr ≠ c.cellY → Memory.read c s.mem addr = 0) ∧
    s.input.length = c.numButtons ∧ (∀ b < c.numButtons, s.input[b]? = some false) ∧
    Frame.sized c s.frame = true ∧
    (∀ py px, py < c.height → px < c.width → Frame.pixel s.frame py px = some c.clearColor) ∧
    s.lastTick = none ∧ s.slot = none ∧ s.fatal = none

/-! ### Invariants -/

/-- The state after reset is legal.
The construction state is the spec's own decision (D26, log 20). -/
def Obligations.ResetStateIsLegal : Prop :=
  State.reset.Inv

/-- Every completed step keeps the record's promises: the configuration, the canonical memory, the sizes of image, input, frame and
snapshot. -/
def Obligations.StepKeepsInvariant : Prop :=
  ∀ s t : State, s.Inv → step s = .next t → t.Inv

/-- Every host command keeps them too, in the state it ends in and in the terminated state a fault leaves. -/
def Obligations.CommandKeepsInvariant : Prop :=
  ∀ (cmd : Command) (s t : State), s.Inv →
    ((∃ reply, command cmd s = .done t reply) ∨ ∃ f, command cmd s = .fault t f) → t.Inv

/-- R45, R76: every core a run from construction can reach is legal, and none was terminated by AddressOutOfRange.
The spec derives R45 and R76. -/
def Obligations.ReachableCoresAreLegal : Prop :=
  ∀ s : State, s.Reachable → s.Inv ∧ ∀ addr, s.fatal ≠ some (.addressOutOfRange addr)

/-! ### What an executed tick is -/

/-- R170, R77, R129, R276: an executed tick of a legal core is never refused. Either BUDGET steps, one after the other from the state
with its time recorded, all complete, and it ends with Ok in the state where they end after one position update and one render, on a
core that is not terminated; or the first of them that does not complete raises OperandPastImageEnd, and it ends with that fault in
the state the steps before it left, with the wrap of its own step and the terminated bit.
The operand fault and the termination are the spec's own decisions (D5, D23, D34; log 12, log 19, log 25), and so are the render at the
end (D16, log 17) and when a tick executes and records its time (D14, log 15). -/
def Obligations.ExecutedTickCompletesOrFaults : Prop :=
  ∀ (s : State) (now : Millis), s.Inv → s.TickExecutes now →
    (∃ u v : State, Host.Core.run Sys2Proof.core s.cfg.budget { s with lastTick := some now } = .next u ∧
      positionUpdate u = .ok v ∧ command (.tick now) s = .done (drawFrame v) .ok ∧ (drawFrame v).fatal = none) ∨
    ∃ (j : Nat) (u : State) (pc : Addr), j < s.cfg.budget ∧
      Host.Core.run Sys2Proof.core j { s with lastTick := some now } = .next u ∧
      step u = .fault (.operandPastImageEnd pc) ∧
      command (.tick now) s =
        .fault { wrapPc u with fatal := some (.operandPastImageEnd pc) } (.operandPastImageEnd pc)

/-- R170, R176: the steps of a tick are the step, again and again, and nothing between them: they complete in u exactly when that many
steps one after the other answer u, and they fault, or are refused, exactly when the first of them that does not complete does, a fault
leaving the wrap of its own step and the terminated bit. The pc is not wrapped after the last step.
The lazy wrap and what a fault leaves are the spec's own decisions (D4, D23, D34; log 11, log 19, log 25). -/
def Obligations.BudgetIsRepeatedStep : Prop :=
  ∀ (k : Nat) (s : State),
    (∀ u : State, runBudget k s = .completed u ↔ Host.Core.run Sys2Proof.core k s = .next u) ∧
    (∀ (t : State) (f : Fault), runBudget k s = .faulted t f ↔
      ∃ (j : Nat) (u : State), j < k ∧ Host.Core.run Sys2Proof.core j s = .next u ∧ step u = .fault f ∧
        t = { wrapPc u with fatal := some f }) ∧
    ∀ r : Refusal, runBudget k s = .refused r ↔
      ∃ (j : Nat) (u : State), j < k ∧ Host.Core.run Sys2Proof.core j s = .next u ∧ step u = .refused r
end

