-- ==== Sys2Proof/Laws/Assembler.lean ====
section
/-! SUPPORT. What the number readers of the assembler text give on a number written out in its digits (30_encoding.md R99). -/

namespace Sys2Proof.Machine

/-- A digit character of a base up to 16 has its digit as value. -/
theorem digitValue_digitChar {d : Nat} (h : d < 16) : digitValue d.digitChar = some d := by
  interval_cases d <;> decide

/-- Reading digits one after the other. -/
theorem digitsFrom_append (base acc : Nat) (xs ys : List Char) :
    digitsFrom base acc (xs ++ ys) = (digitsFrom base acc xs).bind fun n => digitsFrom base n ys := by
  induction xs generalizing acc with
  | nil => rfl
  | cons ch chs ih =>
    simp only [List.cons_append, digitsFrom]
    split
    · split
      · exact ih _
      · rfl
    · rfl

/-- The digits of a number are read back as that number. -/
theorem digitsFrom_toDigits {base : Nat} (h : 1 < base) (h16 : base ≤ 16) (v : Nat) :
    digitsFrom base 0 (Nat.toDigits base v) = some v := by
  induction v using Nat.strong_induction_on with
  | _ v ih =>
    rw [Nat.toDigits_eq_if h]
    split
    next hv => simp [digitsFrom, digitValue_digitChar (show v < 16 by omega), hv]
    next hv =>
      have hm : v % base < base := Nat.mod_lt _ (by omega)
      rw [digitsFrom_append, ih _ (Nat.div_lt_self (by omega) h)]
      simp [digitsFrom, digitValue_digitChar (show v % base < 16 by omega), hm, Nat.div_add_mod']

/-- The letter case of a digit does not change its value. -/
theorem digitValue_toLower (ch : Char) : digitValue ch.toLower = digitValue ch := by
  unfold Char.toLower
  split
  next h =>
    obtain ⟨h1, h2⟩ := h
    have h1 : 65 ≤ ch.toNat := h1
    have h2 : ch.toNat ≤ 90 := h2
    have hn (hv) : (Char.mk (ch.val + ('a'.val - 'A'.val)) hv).toNat = ch.toNat + 32 := by
      show (ch.val + 32).toNat = ch.val.toNat + 32
      have h2 : ch.val.toNat ≤ 90 := h2
      rw [UInt32.toNat_add]
      show (ch.val.toNat + 32) % 4294967296 = _
      omega
    simp only [digitValue, hn]
    split_ifs <;> first | rfl | omega
  next => rfl

/-- The letter case of the digits does not change the number. -/
theorem digitsFrom_map_toLower (base acc : Nat) (chs : List Char) :
    digitsFrom base acc (chs.map Char.toLower) = digitsFrom base acc chs := by
  induction chs generalizing acc with
  | nil => rfl
  | cons ch chs ih => simp only [List.map_cons, digitsFrom, digitValue_toLower, ih]

/-- Leading zeros do not change the number. -/
theorem digitsFrom_leading_zeros {base : Nat} (h : 1 < base) (z : Nat) (chs : List Char) :
    digitsFrom base 0 (List.replicate z '0' ++ chs) = digitsFrom base 0 chs := by
  induction z with
  | zero => rfl
  | succ z ih =>
    have h0 : digitValue '0' = some 0 := by decide
    rw [List.replicate_succ, List.cons_append]
    simpa [digitsFrom, h0, show 0 < base by omega] using ih

/-- `parseDigits` reads a written-out number, with any leading zeros and in either letter case. -/
theorem parseDigits_written {base : Nat} (h : 1 < base) (h16 : base ≤ 16) {v z : Nat} {chs : List Char}
    (hc : chs.map Char.toLower = List.replicate z '0' ++ Nat.toDigits base v) : parseDigits base chs = some v := by
  have hd : digitsFrom base 0 chs = some v := by
    rw [← digitsFrom_map_toLower, hc, digitsFrom_leading_zeros h, digitsFrom_toDigits h h16]
  cases chs with
  | nil =>
    have hn : Nat.toDigits base v = [] := (List.append_eq_nil_iff.1 hc.symm).2
    exact absurd hn Nat.toDigits_ne_nil
  | cons ch chs => exact hd

/-- A number after `$` is hexadecimal. -/
theorem parseNumber_hex {v z : Nat} {chs : List Char}
    (hc : chs.map Char.toLower = List.replicate z '0' ++ Nat.toDigits 16 v) : parseNumber ('$' :: chs) = some v :=
  parseDigits_written (by decide) (by decide) hc

/-- A number without `$` is decimal. -/
theorem parseNumber_decimal (v z : Nat) : parseNumber (List.replicate z '0' ++ Nat.toDigits 10 v) = some v := by
  have hd : parseDigits 10 (List.replicate z '0' ++ Nat.toDigits 10 v) = some v := by
    have h := digitsFrom_leading_zeros (base := 10) (by decide) z (Nat.toDigits 10 v)
    rw [digitsFrom_toDigits (by decide) (by decide)] at h
    cases hl : List.replicate z '0' ++ Nat.toDigits 10 v with
    | nil => exact absurd (List.append_eq_nil_iff.1 hl).2 Nat.toDigits_ne_nil
    | cons ch chs => rw [hl] at h; exact h
  unfold parseNumber
  split
  next heq =>
    have hm : '$' ∈ List.replicate z '0' ++ Nat.toDigits 10 v := by simp [heq]
    rcases List.mem_append.1 hm with hm | hm
    · exact absurd (List.eq_of_mem_replicate hm) (by decide)
    · exact absurd (Nat.isDigit_of_mem_toDigits (by decide) (by decide) hm) (by decide)
  next => exact hd

end Sys2Proof.Machine
end

