-- ==== Sys2Proof/Laws/Decode.lean ====
section
/-! SUPPORT. Small facts of the decoder and the encoder (30_encoding.md). -/

namespace Sys2Proof

open Machine (jumpTarget targetLo targetHi)

variable {c : Config}

@[simp] theorem OpClass.length_lda : OpClass.length .lda = 2 := rfl
@[simp] theorem OpClass.length_sta : OpClass.length .sta = 2 := rfl
@[simp] theorem OpClass.length_jmp : OpClass.length .jmp = 3 := rfl
@[simp] theorem OpClass.length_nop : OpClass.length .nop = 1 := rfl

theorem OpClass.length_pos (cls : OpClass) : 1 ≤ cls.length := by cases cls <;> decide

theorem OpClass.length_le (cls : OpClass) : cls.length ≤ 3 := by cases cls <;> decide

/-- R96: the target is `zext_16(b1) + 256 * zext_16(b2)`. -/
theorem jumpTarget_toNat (lo hi : Byte) : (jumpTarget lo hi).toNat = lo.toNat + 256 * hi.toNat := by
  have hl := lo.isLt
  rw [jumpTarget, BitVec.toNat_append, ← Nat.shiftLeft_add_eq_or_of_lt hl, Nat.shiftLeft_eq]
  omega

theorem targetLo_toNat (t : Addr) : (targetLo t).toNat = t.toNat % 256 := by simp [targetLo, BitVec.extractLsb'_toNat]

theorem targetHi_toNat (t : Addr) : (targetHi t).toNat = t.toNat / 256 := by
  have := t.isLt
  simp [targetHi, BitVec.extractLsb'_toNat, Nat.shiftRight_eq_div_pow]
  omega

/-- A target is its two bytes put together again (R96). -/
@[simp] theorem jumpTarget_targetLo_targetHi (t : Addr) : jumpTarget (targetLo t) (targetHi t) = t := by
  apply BitVec.eq_of_toNat_eq
  rw [jumpTarget_toNat, targetLo_toNat, targetHi_toNat]
  omega

@[simp] theorem targetLo_jumpTarget (lo hi : Byte) : targetLo (jumpTarget lo hi) = lo := by
  have := lo.isLt
  apply BitVec.eq_of_toNat_eq
  rw [targetLo_toNat, jumpTarget_toNat]
  omega

@[simp] theorem targetHi_jumpTarget (lo hi : Byte) : targetHi (jumpTarget lo hi) = hi := by
  have := lo.isLt
  apply BitVec.eq_of_toNat_eq
  rw [targetHi_toNat, jumpTarget_toNat]
  omega

theorem classOf_ldi : classOf c c.opcLdi = .lda := by simp [classOf]

theorem classOf_sta (h : c.opcodesOk = true) : classOf c c.opcSta = .sta := by
  simp only [Config.opcodesOk, Bool.and_eq_true, bne_iff_ne] at h
  simp [classOf, h.1.1.symm]

theorem classOf_jmp (h : c.opcodesOk = true) : classOf c c.opcJmp = .jmp := by
  simp only [Config.opcodesOk, Bool.and_eq_true, bne_iff_ne] at h
  simp [classOf, h.1.2.symm, h.2.symm]

/-- A byte is of the NOP class exactly when it is none of the three opcodes (R97). -/
theorem classOf_eq_nop_iff (op : Byte) :
    classOf c op = .nop ↔ op ≠ c.opcLdi ∧ op ≠ c.opcSta ∧ op ≠ c.opcJmp := by
  unfold classOf
  split
  · simp_all
  · split
    · simp_all
    · split <;> simp_all

/-- What the decoder gives, by the class of the opcode byte: each class's operand bytes are taken from the front (R92). -/
theorem decode_cons (op : Byte) (rest : List Byte) :
    decode c (op :: rest) =
      match classOf c op, rest with
      | .lda, b1 :: rest' => .ok (.lda b1, rest')
      | .sta, b1 :: rest' => .ok (.sta b1, rest')
      | .jmp, b1 :: b2 :: rest' => .ok (.jmp (jumpTarget b1 b2), rest')
      | .nop, rest' => .ok (.nop op, rest')
      | cls, _ => .error (.operandMissing cls) := rfl

/-- The decoder rejects exactly where bytes are missing, and otherwise gives an instruction of the opcode's class. -/
theorem decode_spec (op : Byte) (rest : List Byte) :
    (rest.length + 1 < (classOf c op).length ∧ decode c (op :: rest) = .error (.operandMissing (classOf c op))) ∨
      ((classOf c op).length ≤ rest.length + 1 ∧
        ∃ i, i.opClass = classOf c op ∧ decode c (op :: rest) = .ok (i, rest.drop ((classOf c op).length - 1))) := by
  rw [decode_cons]
  rcases h : classOf c op <;> rcases rest with _ | ⟨b1, _ | ⟨b2, rest⟩⟩ <;>
    simp [Instr.opClass]

end Sys2Proof
end

