-- ==== Sys2Proof/Laws/Memory.lean ====
section
/-! SUPPORT. MemoryImage as a canonical list: what a write does to every read (20_memory.md R65), that every memory operation keeps
the canonical form, and that two canonical memories with equal reads are equal. -/

namespace Sys2Proof.Machine

variable {c : Config}

@[simp] theorem Memory.read_nil (addr : Nat) : Memory.read c [] addr = unlistedByte c addr := rfl

@[simp] theorem Memory.read_cons (k : Nat) (v : Byte) (m : Memory) (addr : Nat) :
    Memory.read c ((k, v) :: m) addr = if addr = k then v else Memory.read c m addr := rfl

@[simp] theorem Memory.wfFrom_nil (lo : Nat) : Memory.wfFrom c lo [] = true := rfl

theorem Memory.wfFrom_cons {lo k : Nat} {v : Byte} {m : Memory} :
    Memory.wfFrom c lo ((k, v) :: m) = true ↔
      lo ≤ k ∧ k < c.memSize ∧ v ≠ unlistedByte c k ∧ Memory.wfFrom c (k + 1) m = true := by
  simp [Memory.wfFrom, and_assoc]

theorem Memory.wfFrom_mono {lo lo' : Nat} {m : Memory} (hlo : lo' ≤ lo) (h : Memory.wfFrom c lo m = true) :
    Memory.wfFrom c lo' m = true := by
  cases m with
  | nil => rfl
  | cons e m =>
    obtain ⟨k, v⟩ := e
    rw [wfFrom_cons] at h ⊢
    exact ⟨hlo.trans h.1, h.2⟩

/-- Below its first possible address a canonical memory reads as unlisted. -/
theorem Memory.read_below {lo addr : Nat} {m : Memory} (h : Memory.wfFrom c lo m = true) (ha : addr < lo) :
    Memory.read c m addr = unlistedByte c addr := by
  induction m generalizing lo with
  | nil => rfl
  | cons e m ih =>
    obtain ⟨k, v⟩ := e
    rw [wfFrom_cons] at h
    obtain ⟨h1, -, -, h4⟩ := h
    rw [read_cons, if_neg (by omega), ih h4 (by omega)]

theorem Memory.read_write_same {lo addr : Nat} {m : Memory} (v : Byte) (h : Memory.wfFrom c lo m = true) :
    Memory.read c (Memory.write c m addr v) addr = v := by
  induction m generalizing lo with
  | nil => unfold write; split <;> simp_all
  | cons e m ih =>
    obtain ⟨k, w⟩ := e
    have hw := h
    rw [wfFrom_cons] at h
    obtain ⟨-, -, -, h4⟩ := h
    unfold write
    split
    · rename_i hlt
      split
      · rename_i hv
        rw [read_cons, if_neg (by omega), read_below h4 (by omega), hv]
      · simp
    · split
      · rename_i heq
        subst heq
        split
        · rename_i hv
          rw [read_below h4 (by omega), hv]
        · simp
      · rename_i hne
        rw [read_cons, if_neg hne, ih h4]

theorem Memory.read_write_other {addr b : Nat} (m : Memory) (v : Byte) (hne : b ≠ addr) :
    Memory.read c (Memory.write c m addr v) b = Memory.read c m b := by
  induction m with
  | nil => unfold write; split <;> simp [hne]
  | cons e m ih =>
    obtain ⟨k, w⟩ := e
    unfold write
    split
    · split <;> simp [hne]
    · split
      · rename_i heq
        subst heq
        split <;> simp [hne]
      · simp [ih]

theorem Memory.write_wfFrom {lo addr : Nat} {m : Memory} (v : Byte) (hlo : lo ≤ addr) (ha : addr < c.memSize)
    (h : Memory.wfFrom c lo m = true) : Memory.wfFrom c lo (Memory.write c m addr v) = true := by
  induction m generalizing lo with
  | nil =>
    unfold write
    split
    · rfl
    · exact wfFrom_cons.2 ⟨hlo, ha, ‹_›, rfl⟩
  | cons e m ih =>
    obtain ⟨k, w⟩ := e
    have hw := h
    rw [wfFrom_cons] at h
    obtain ⟨h1, h2, h3, h4⟩ := h
    unfold write
    split
    · rename_i hlt
      split
      · exact hw
      · exact wfFrom_cons.2 ⟨hlo, ha, ‹_›, wfFrom_cons.2 ⟨hlt, h2, h3, h4⟩⟩
    · split
      · rename_i heq
        subst heq
        split
        · exact wfFrom_mono (by omega) h4
        · exact wfFrom_cons.2 ⟨hlo, ha, ‹_›, h4⟩
      · exact wfFrom_cons.2 ⟨h1, h2, h3, ih (by omega) h4⟩

/-- A write inside MemoryImage keeps the canonical form. -/
theorem Memory.write_wf {addr : Nat} {m : Memory} (v : Byte) (ha : addr < c.memSize) (h : Memory.wf c m = true) :
    Memory.wf c (Memory.write c m addr v) = true :=
  write_wfFrom v (Nat.zero_le _) ha h

/-- Reset memory has the canonical form. -/
theorem Memory.nil_wf : Memory.wf c [] = true := rfl

theorem Memory.ofBytesFrom_wfFrom {bytes : List Byte} {k : Nat} (h : k + bytes.length ≤ c.memSize) :
    Memory.wfFrom c k (Memory.ofBytesFrom c k bytes) = true := by
  induction bytes generalizing k with
  | nil => rfl
  | cons b bs ih =>
    simp only [List.length_cons] at h
    have ih' := ih (k := k + 1) (by omega)
    unfold ofBytesFrom
    split
    · exact wfFrom_mono (by omega) ih'
    · exact wfFrom_cons.2 ⟨le_rfl, by omega, ‹_›, ih'⟩

/-- Restoring a snapshot of MEM_SIZE bytes gives the canonical form. -/
theorem Memory.ofBytes_wf {bytes : List Byte} (h : bytes.length = c.memSize) :
    Memory.wf c (Memory.ofBytes c bytes) = true :=
  ofBytesFrom_wfFrom (by omega)

theorem Memory.read_ofBytesFrom (bytes : List Byte) (k i : Nat) :
    Memory.read c (Memory.ofBytesFrom c k bytes) (k + i) = bytes.getD i (unlistedByte c (k + i)) := by
  induction bytes generalizing k i with
  | nil => simp [ofBytesFrom]
  | cons b bs ih =>
    cases i with
    | zero =>
      unfold ofBytesFrom
      split
      · rename_i hb
        have hread : read c (ofBytesFrom c (k + 1) bs) k = unlistedByte c k := by
          clear ih hb
          suffices ∀ k', k < k' → read c (ofBytesFrom c k' bs) k = unlistedByte c k from this _ (by omega)
          induction bs with
          | nil => intros; rfl
          | cons b' bs ih =>
            intro k' hk
            unfold ofBytesFrom
            split
            · exact ih _ (by omega)
            · rw [read_cons, if_neg (by omega), ih _ (by omega)]
        simp [hread, hb]
      · simp
    | succ i =>
      have ih' := ih (k + 1) i
      rw [show k + 1 + i = k + (i + 1) by omega] at ih'
      unfold ofBytesFrom
      split
      · simpa using ih'
      · rw [read_cons, if_neg (by omega)]
        simpa using ih'

/-- Byte `i` of a restored memory is byte `i` of the snapshot. -/
theorem Memory.read_ofBytes (bytes : List Byte) (i : Nat) :
    Memory.read c (Memory.ofBytes c bytes) i = bytes.getD i (unlistedByte c i) := by
  simpa [ofBytes] using read_ofBytesFrom (c := c) bytes 0 i

@[simp] theorem Memory.length_toBytes (m : Memory) : (Memory.toBytes c m).length = c.memSize := by
  simp [toBytes]

/-- Byte `i` of a saved memory is the byte read at `i`. -/
theorem Memory.getElem?_toBytes (m : Memory) {i : Nat} (h : i < c.memSize) :
    (Memory.toBytes c m)[i]? = some (Memory.read c m i) := by
  simp [toBytes, h]

theorem Memory.wfFrom_ext {lo : Nat} {m m' : Memory} (h : Memory.wfFrom c lo m = true) (h' : Memory.wfFrom c lo m' = true)
    (heq : ∀ addr < c.memSize, Memory.read c m addr = Memory.read c m' addr) : m = m' := by
  induction m generalizing lo m' with
  | nil =>
    cases m' with
    | nil => rfl
    | cons e m' =>
      obtain ⟨k, v⟩ := e
      rw [wfFrom_cons] at h'
      exact absurd (by simpa using (heq k h'.2.1).symm) h'.2.2.1
  | cons e m ih =>
    obtain ⟨k, v⟩ := e
    have hw := h
    rw [wfFrom_cons] at h
    obtain ⟨h1, h2, h3, h4⟩ := h
    cases m' with
    | nil => exact absurd (by simpa using heq k h2) h3
    | cons e' m' =>
      obtain ⟨k', v'⟩ := e'
      have hw' := h'
      rw [wfFrom_cons] at h'
      obtain ⟨h1', h2', h3', h4'⟩ := h'
      rcases Nat.lt_trichotomy k k' with hlt | rfl | hlt
      · have := heq k h2
        rw [read_cons, if_pos rfl, read_below (lo := k + 1) (wfFrom_cons.2 ⟨hlt, h2', h3', h4'⟩) (by omega)] at this
        exact absurd this h3
      · have hv : v = v' := by simpa using heq k h2
        subst hv
        congr 1
        refine ih h4 h4' fun addr ha => ?_
        by_cases hk : addr = k
        · subst hk
          rw [read_below h4 (by omega), read_below h4' (by omega)]
        · simpa [hk] using heq addr ha
      · have := heq k' h2'
        rw [read_cons (addr := k') (k := k'), if_pos rfl,
          read_below (lo := k' + 1) (wfFrom_cons.2 ⟨hlt, h2, h3, h4⟩) (by omega)] at this
        exact absurd this.symm h3'

/-- Equal reads, equal data: the canonical form has one list for each MemoryImage. -/
theorem Memory.wf_ext {m m' : Memory} (h : Memory.wf c m = true) (h' : Memory.wf c m' = true)
    (heq : ∀ addr < c.memSize, Memory.read c m addr = Memory.read c m' addr) : m = m' :=
  wfFrom_ext h h' heq

/-- Saving and restoring gives the same canonical memory. -/
theorem Memory.ofBytes_toBytes {m : Memory} (h : Memory.wf c m = true) :
    Memory.ofBytes c (Memory.toBytes c m) = m := by
  refine wf_ext (ofBytes_wf (by simp)) h fun addr ha => ?_
  rw [read_ofBytes, List.getD_eq_getElem?_getD, getElem?_toBytes m ha, Option.getD_some]

end Sys2Proof.Machine
end

