-- ==== Sys2Proof/Laws/State.lean ====
section
/-! SUPPORT. What each state update does to each field, and the wrap of the pc to each field: true by rfl or by one case split. -/

namespace Sys2Proof.Machine

@[simp] theorem setA_cfg (s : State) (v : Byte) : (setA s v).cfg = s.cfg := rfl
@[simp] theorem setA_prog (s : State) (v : Byte) : (setA s v).prog = s.prog := rfl
@[simp] theorem setA_mem (s : State) (v : Byte) : (setA s v).mem = s.mem := rfl
@[simp] theorem setA_pc (s : State) (v : Byte) : (setA s v).pc = s.pc := rfl
@[simp] theorem setA_a (s : State) (v : Byte) : (setA s v).a = v := rfl
@[simp] theorem setA_cycles (s : State) (v : Byte) : (setA s v).cycles = s.cycles := rfl
@[simp] theorem setA_input (s : State) (v : Byte) : (setA s v).input = s.input := rfl
@[simp] theorem setA_frame (s : State) (v : Byte) : (setA s v).frame = s.frame := rfl
@[simp] theorem setA_lastTick (s : State) (v : Byte) : (setA s v).lastTick = s.lastTick := rfl
@[simp] theorem setA_slot (s : State) (v : Byte) : (setA s v).slot = s.slot := rfl
@[simp] theorem setA_fatal (s : State) (v : Byte) : (setA s v).fatal = s.fatal := rfl

@[simp] theorem advancePc_cfg (s : State) (n : Nat) : (advancePc s n).cfg = s.cfg := rfl
@[simp] theorem advancePc_prog (s : State) (n : Nat) : (advancePc s n).prog = s.prog := rfl
@[simp] theorem advancePc_mem (s : State) (n : Nat) : (advancePc s n).mem = s.mem := rfl
@[simp] theorem advancePc_pc (s : State) (n : Nat) : (advancePc s n).pc = s.pc + BitVec.ofNat 16 n := rfl
@[simp] theorem advancePc_a (s : State) (n : Nat) : (advancePc s n).a = s.a := rfl
@[simp] theorem advancePc_cycles (s : State) (n : Nat) : (advancePc s n).cycles = s.cycles := rfl
@[simp] theorem advancePc_input (s : State) (n : Nat) : (advancePc s n).input = s.input := rfl
@[simp] theorem advancePc_frame (s : State) (n : Nat) : (advancePc s n).frame = s.frame := rfl
@[simp] theorem advancePc_lastTick (s : State) (n : Nat) : (advancePc s n).lastTick = s.lastTick := rfl
@[simp] theorem advancePc_slot (s : State) (n : Nat) : (advancePc s n).slot = s.slot := rfl
@[simp] theorem advancePc_fatal (s : State) (n : Nat) : (advancePc s n).fatal = s.fatal := rfl

@[simp] theorem setPc_cfg (s : State) (target : Addr) : (setPc s target).cfg = s.cfg := rfl
@[simp] theorem setPc_prog (s : State) (target : Addr) : (setPc s target).prog = s.prog := rfl
@[simp] theorem setPc_mem (s : State) (target : Addr) : (setPc s target).mem = s.mem := rfl
@[simp] theorem setPc_pc (s : State) (target : Addr) : (setPc s target).pc = target := rfl
@[simp] theorem setPc_a (s : State) (target : Addr) : (setPc s target).a = s.a := rfl
@[simp] theorem setPc_cycles (s : State) (target : Addr) : (setPc s target).cycles = s.cycles := rfl
@[simp] theorem setPc_input (s : State) (target : Addr) : (setPc s target).input = s.input := rfl
@[simp] theorem setPc_frame (s : State) (target : Addr) : (setPc s target).frame = s.frame := rfl
@[simp] theorem setPc_lastTick (s : State) (target : Addr) : (setPc s target).lastTick = s.lastTick := rfl
@[simp] theorem setPc_slot (s : State) (target : Addr) : (setPc s target).slot = s.slot := rfl
@[simp] theorem setPc_fatal (s : State) (target : Addr) : (setPc s target).fatal = s.fatal := rfl

@[simp] theorem countCycle_cfg (s : State) : (countCycle s).cfg = s.cfg := rfl
@[simp] theorem countCycle_prog (s : State) : (countCycle s).prog = s.prog := rfl
@[simp] theorem countCycle_mem (s : State) : (countCycle s).mem = s.mem := rfl
@[simp] theorem countCycle_pc (s : State) : (countCycle s).pc = s.pc := rfl
@[simp] theorem countCycle_a (s : State) : (countCycle s).a = s.a := rfl
@[simp] theorem countCycle_cycles (s : State) : (countCycle s).cycles = s.cycles + 1 := rfl
@[simp] theorem countCycle_input (s : State) : (countCycle s).input = s.input := rfl
@[simp] theorem countCycle_frame (s : State) : (countCycle s).frame = s.frame := rfl
@[simp] theorem countCycle_lastTick (s : State) : (countCycle s).lastTick = s.lastTick := rfl
@[simp] theorem countCycle_slot (s : State) : (countCycle s).slot = s.slot := rfl
@[simp] theorem countCycle_fatal (s : State) : (countCycle s).fatal = s.fatal := rfl

@[simp] theorem terminate_cfg (s : State) (cause : Fault) : (terminate s cause).cfg = s.cfg := rfl
@[simp] theorem terminate_prog (s : State) (cause : Fault) : (terminate s cause).prog = s.prog := rfl
@[simp] theorem terminate_mem (s : State) (cause : Fault) : (terminate s cause).mem = s.mem := rfl
@[simp] theorem terminate_pc (s : State) (cause : Fault) : (terminate s cause).pc = s.pc := rfl
@[simp] theorem terminate_a (s : State) (cause : Fault) : (terminate s cause).a = s.a := rfl
@[simp] theorem terminate_cycles (s : State) (cause : Fault) : (terminate s cause).cycles = s.cycles := rfl
@[simp] theorem terminate_input (s : State) (cause : Fault) : (terminate s cause).input = s.input := rfl
@[simp] theorem terminate_frame (s : State) (cause : Fault) : (terminate s cause).frame = s.frame := rfl
@[simp] theorem terminate_lastTick (s : State) (cause : Fault) : (terminate s cause).lastTick = s.lastTick := rfl
@[simp] theorem terminate_slot (s : State) (cause : Fault) : (terminate s cause).slot = s.slot := rfl
@[simp] theorem terminate_fatal (s : State) (cause : Fault) : (terminate s cause).fatal = some cause := rfl

@[simp] theorem drawFrame_cfg (s : State) : (drawFrame s).cfg = s.cfg := rfl
@[simp] theorem drawFrame_prog (s : State) : (drawFrame s).prog = s.prog := rfl
@[simp] theorem drawFrame_mem (s : State) : (drawFrame s).mem = s.mem := rfl
@[simp] theorem drawFrame_pc (s : State) : (drawFrame s).pc = s.pc := rfl
@[simp] theorem drawFrame_a (s : State) : (drawFrame s).a = s.a := rfl
@[simp] theorem drawFrame_cycles (s : State) : (drawFrame s).cycles = s.cycles := rfl
@[simp] theorem drawFrame_input (s : State) : (drawFrame s).input = s.input := rfl
@[simp] theorem drawFrame_frame (s : State) : (drawFrame s).frame = render s.cfg s.mem := rfl
@[simp] theorem drawFrame_lastTick (s : State) : (drawFrame s).lastTick = s.lastTick := rfl
@[simp] theorem drawFrame_slot (s : State) : (drawFrame s).slot = s.slot := rfl
@[simp] theorem drawFrame_fatal (s : State) : (drawFrame s).fatal = s.fatal := rfl

@[simp] theorem wrapPc_cfg (s : State) : (wrapPc s).cfg = s.cfg := by unfold wrapPc; split <;> rfl
@[simp] theorem wrapPc_prog (s : State) : (wrapPc s).prog = s.prog := by unfold wrapPc; split <;> rfl
@[simp] theorem wrapPc_mem (s : State) : (wrapPc s).mem = s.mem := by unfold wrapPc; split <;> rfl
@[simp] theorem wrapPc_a (s : State) : (wrapPc s).a = s.a := by unfold wrapPc; split <;> rfl
@[simp] theorem wrapPc_cycles (s : State) : (wrapPc s).cycles = s.cycles := by unfold wrapPc; split <;> rfl
@[simp] theorem wrapPc_input (s : State) : (wrapPc s).input = s.input := by unfold wrapPc; split <;> rfl
@[simp] theorem wrapPc_frame (s : State) : (wrapPc s).frame = s.frame := by unfold wrapPc; split <;> rfl
@[simp] theorem wrapPc_lastTick (s : State) : (wrapPc s).lastTick = s.lastTick := by unfold wrapPc; split <;> rfl
@[simp] theorem wrapPc_slot (s : State) : (wrapPc s).slot = s.slot := by unfold wrapPc; split <;> rfl
@[simp] theorem wrapPc_fatal (s : State) : (wrapPc s).fatal = s.fatal := by unfold wrapPc; split <;> rfl

/-- The wrap with an image loaded (R121). -/
theorem wrapPc_of_prog {s : State} {image : List Byte} (h : s.prog = some image) :
    wrapPc s = setPc s (windowPc s.cfg image s.pc) := by simp [wrapPc, h]

/-- The wrap with no image does nothing. -/
theorem wrapPc_of_none {s : State} (h : s.prog = none) : wrapPc s = s := by simp [wrapPc, h]

@[simp] theorem terminated_iff (s : State) : s.terminated = true ↔ s.fatal ≠ none := by
  cases h : s.fatal <;> simp [State.terminated, h]

theorem terminated_of_fatal {s : State} (h : s.fatal = none) : s.terminated = false := by simp [State.terminated, h]

theorem runnable_iff (s : State) : s.runnable = true ↔ (∃ image, s.prog = some image) ∧ s.fatal = none := by
  cases h : s.fatal <;> cases h' : s.prog <;> simp [State.runnable, State.loaded, State.terminated, h, h']

end Sys2Proof.Machine
end

