-- ==== Sys2Proof/Laws/Ops.lean ====
section
/-! SUPPORT. One lemma for each shared operation that says what it can do: memory accesses with their bounds, the program window, and
the fetch. -/

namespace Sys2Proof.Machine

variable {c : Config} {image : List Byte}

/-! ### Memory accesses -/

theorem memRead_eq_ok {s : State} {addr : Nat} (h : addr < s.cfg.memSize) :
    memRead s addr = .ok (Memory.read s.cfg s.mem addr) := by simp [memRead, h]

theorem memRead_eq_error {s : State} {addr : Nat} (h : s.cfg.memSize ≤ addr) :
    memRead s addr = .error (.addressOutOfRange addr) := by simp [memRead, Nat.not_lt.2 h]

theorem memWrite_eq_ok {s : State} {addr : Nat} (v : Byte) (h : addr < s.cfg.memSize) :
    memWrite s addr v = .ok { s with mem := Memory.write s.cfg s.mem addr v } := by simp [memWrite, h]

theorem memWrite_eq_error {s : State} {addr : Nat} (v : Byte) (h : s.cfg.memSize ≤ addr) :
    memWrite s addr v = .error (.addressOutOfRange addr) := by simp [memWrite, Nat.not_lt.2 h]

/-- A write that succeeds was inside MemoryImage and changed nothing but MemoryImage. -/
theorem memWrite_ok_cases {s t : State} {addr : Nat} {v : Byte} (h : memWrite s addr v = .ok t) :
    addr < s.cfg.memSize ∧ t = { s with mem := Memory.write s.cfg s.mem addr v } := by
  unfold memWrite at h
  split at h
  · exact ⟨‹_›, by simpa using h.symm⟩
  · simp at h

/-- The address a `STA` names is its operand byte as an unsigned number (R95). -/
theorem effectiveAddr_eq (addr8 : Byte) : effectiveAddr addr8 = addr8.toNat := by
  have := addr8.isLt
  simp only [effectiveAddr, BitVec.toNat_setWidth]
  omega

/-! ### The program window -/

theorem inWindow_iff (addr : Nat) :
    inWindow c image addr = true ↔ c.entry.toNat ≤ addr ∧ addr < c.entry.toNat + image.length := by
  simp [inWindow]

/-- The pc a step fetches at lies inside the window of every image that has a byte (R121). -/
theorem windowPc_inWindow (h : 1 ≤ image.length) (pc : Addr) : inWindow c image (windowPc c image pc).toNat = true := by
  unfold windowPc
  split
  · assumption
  · rw [inWindow_iff]; omega

theorem windowPc_of_inWindow {pc : Addr} (h : inWindow c image pc.toNat = true) : windowPc c image pc = pc := by
  simp [windowPc, h]

theorem windowPc_of_not_inWindow {pc : Addr} (h : ¬ inWindow c image pc.toNat = true) :
    windowPc c image pc = c.entry := by
  simp [windowPc, h]

/-- ProgRead inside the window is a byte of the image (R66). -/
theorem progRead_eq {addr : Nat} (h : inWindow c image addr = true) :
    image[addr - c.entry.toNat]? = some (progRead c image addr) := by
  rw [inWindow_iff] at h
  have hlt : addr - c.entry.toNat < image.length := by omega
  simp [progRead, List.getElem?_eq_getElem hlt]

/-- The bytes a fetch sees are the next three of the image, as far as it has them. -/
theorem fetchBytes_eq {pc : Addr} (h : inWindow c image pc.toNat = true) :
    fetchBytes c image pc = (image.drop (pc.toNat - c.entry.toNat)).take 3 := by
  have h0 := progRead_eq h
  rw [inWindow_iff] at h
  obtain ⟨k, hk⟩ : ∃ k, pc.toNat = c.entry.toNat + k := ⟨pc.toNat - c.entry.toNat, by omega⟩
  have hin : ∀ j, inWindow c image (pc.toNat + j) = decide (k + j < image.length) := by
    intro j
    simp only [inWindow, hk]
    simp [Nat.add_assoc]
  have hrd : ∀ j, progRead c image (pc.toNat + j) = image.getD (k + j) 0 := by
    intro j
    simp only [progRead, hk]
    congr 1
    omega
  have hdrop : pc.toNat - c.entry.toNat = k := by omega
  apply List.ext_getElem?
  intro i
  simp only [fetchBytes, List.filter_cons, List.filter_nil, hin, hdrop, decide_eq_true_eq]
  rcases i with _ | _ | _ | i <;> by_cases h1 : k + 1 < image.length <;> by_cases h2 : k + 2 < image.length <;>
    simp [hrd, h1, h2, show k < image.length by omega] <;> omega

/-- What a fetch at a pc inside the window can do: the operand check of R127 decides between OperandPastImageEnd and an
instruction of the opcode's class. -/
theorem fetch_cases {pc : Addr} (h : inWindow c image pc.toNat = true) :
    (c.entry.toNat + image.length < pc.toNat + (classOf c (progRead c image pc.toNat)).length ∧
        fetch c image pc = .error (.operandPastImageEnd pc)) ∨
      (pc.toNat + (classOf c (progRead c image pc.toNat)).length ≤ c.entry.toNat + image.length ∧
        ∃ i, i.opClass = classOf c (progRead c image pc.toNat) ∧ fetch c image pc = .ok i) := by
  have hb := fetchBytes_eq h
  have h0 := progRead_eq h
  rw [inWindow_iff] at h
  obtain ⟨rest, hrest⟩ : ∃ rest, image.drop (pc.toNat - c.entry.toNat) = progRead c image pc.toNat :: rest := by
    obtain ⟨hlt, hget⟩ := List.getElem?_eq_some_iff.1 h0
    exact ⟨_, by rw [List.drop_eq_getElem_cons hlt, hget]⟩
  have hlen : rest.length + 1 = image.length - (pc.toNat - c.entry.toNat) := by
    simpa using (congrArg List.length hrest).symm
  have hcls := (classOf c (progRead c image pc.toNat)).length_le
  rw [hrest, List.take_succ_cons] at hb
  rcases decode_spec (c := c) (progRead c image pc.toNat) (rest.take 2) with ⟨hl, hd⟩ | ⟨hl, i, hi, hd⟩ <;>
    rw [List.length_take] at hl
  · exact .inl ⟨by omega, by simp [fetch, hb, hd]⟩
  · exact .inr ⟨by omega, i, hi, by simp [fetch, hb, hd]⟩

end Sys2Proof.Machine
end

