-- ==== Sys2Proof/Laws/Exec.lean ====
section
/-! SUPPORT. What an instruction and a step can do, said once: the inversion lemmas of exec and step. -/

namespace Sys2Proof.Machine

theorem execLda_eq (imm8 : Byte) (s : State) :
    execLda imm8 s = .next { s with a := imm8, pc := s.pc + 2, cycles := s.cycles + 1 } := rfl

theorem execSta_eq_next {addr8 : Byte} {s : State} (h : effectiveAddr addr8 < s.cfg.memSize) :
    execSta addr8 s = .next { s with
      mem := Memory.write s.cfg s.mem (effectiveAddr addr8) s.a, pc := s.pc + 2, cycles := s.cycles + 1 } := by
  simp [execSta, memWrite_eq_ok s.a h, countCycle, advancePc]

theorem execSta_eq_fault {addr8 : Byte} {s : State} (h : s.cfg.memSize ≤ effectiveAddr addr8) :
    execSta addr8 s = .fault (.addressOutOfRange (effectiveAddr addr8)) := by
  simp [execSta, memWrite_eq_error s.a h]

theorem execJmp_eq (abs16 : Addr) (s : State) :
    execJmp abs16 s = .next { s with pc := abs16, cycles := s.cycles + 1 } := rfl

theorem execNop_eq (op : Byte) (s : State) :
    execNop op s = .next { s with pc := s.pc + 1, cycles := s.cycles + 1 } := rfl

/-- The MemoryImage an instruction leaves: a STA writes one byte, no other class writes any (R141, R62). -/
def memAfter (i : Instr) (s : State) : Memory :=
  match i with
  | .sta addr8 => Memory.write s.cfg s.mem (effectiveAddr addr8) s.a
  | _ => s.mem

/-- If an instruction answers a next state, it wrote at most MemoryImage as `memAfter` says, the pc, A and the cycle
counter, and it counted once. -/
theorem exec_next_cases {i : Instr} {s t : State} (h : exec i s = .next t) :
    t = { s with mem := memAfter i s, pc := t.pc, a := t.a, cycles := s.cycles + 1 } ∧
      ∀ addr8, i = .sta addr8 → effectiveAddr addr8 < s.cfg.memSize := by
  cases i with
  | lda imm8 => simp only [exec, execLda_eq, Host.Outcome.next.injEq] at h; subst h; simp [memAfter]
  | sta addr8 =>
    by_cases hb : effectiveAddr addr8 < s.cfg.memSize
    · simp only [exec, execSta_eq_next hb, Host.Outcome.next.injEq] at h
      subst h
      exact ⟨rfl, by rintro _ ⟨rfl⟩; exact hb⟩
    · simp [exec, execSta_eq_fault (Nat.not_lt.1 hb)] at h
  | jmp abs16 => simp only [exec, execJmp_eq, Host.Outcome.next.injEq] at h; subst h; simp [memAfter]
  | nop op => simp only [exec, execNop_eq, Host.Outcome.next.injEq] at h; subst h; simp [memAfter]

/-- An instruction answers a next state, or is a STA outside MemoryImage. -/
theorem exec_cases (i : Instr) (s : State) :
    (∃ t, exec i s = .next t) ∨
      ∃ addr8, i = .sta addr8 ∧ s.cfg.memSize ≤ effectiveAddr addr8 ∧
        exec i s = .fault (.addressOutOfRange (effectiveAddr addr8)) := by
  cases i with
  | lda imm8 => exact .inl ⟨_, rfl⟩
  | sta addr8 =>
    by_cases hb : effectiveAddr addr8 < s.cfg.memSize
    · exact .inl ⟨_, execSta_eq_next hb⟩
    · exact .inr ⟨addr8, rfl, Nat.not_lt.1 hb, execSta_eq_fault (Nat.not_lt.1 hb)⟩
  | jmp abs16 => exact .inl ⟨_, rfl⟩
  | nop op => exact .inl ⟨_, rfl⟩

/-- In a memory of at least 256 bytes every instruction completes (R76). -/
theorem exec_completes {i : Instr} {s : State} (h : 256 ≤ s.cfg.memSize) : ∃ t, exec i s = .next t := by
  rcases exec_cases i s with ht | ⟨addr8, -, hb, -⟩
  · exact ht
  · have := addr8.isLt
    rw [effectiveAddr_eq] at hb
    omega

theorem step_of_terminated {s : State} (h : s.fatal ≠ none) : step s = .refused .terminated := by
  simp [step, (terminated_iff s).2 h]

theorem step_of_no_prog {s : State} (h : s.fatal = none) (h' : s.prog = none) : step s = .refused .notRunnable := by
  simp [step, terminated_of_fatal h, h']

/-- A step of a runnable state: the fetch at the wrapped pc decides between its fault and the instruction (R120). -/
theorem step_of_prog {s : State} {image : List Byte} (h : s.fatal = none) (h' : s.prog = some image) :
    step s = match fetch s.cfg image (windowPc s.cfg image s.pc) with
      | .error f => .fault f
      | .ok i => exec i { s with pc := windowPc s.cfg image s.pc } := by
  simp only [step, terminated_of_fatal h, h', wrapPc_of_prog h', setPc]
  rfl

theorem step_of_fetch_ok {s : State} {image : List Byte} {i : Instr} (h : s.fatal = none) (h' : s.prog = some image)
    (hi : fetch s.cfg image (windowPc s.cfg image s.pc) = .ok i) :
    step s = exec i { s with pc := windowPc s.cfg image s.pc } := by
  rw [step_of_prog h h', hi]

theorem step_of_fetch_error {s : State} {image : List Byte} {f : Fault} (h : s.fatal = none) (h' : s.prog = some image)
    (hf : fetch s.cfg image (windowPc s.cfg image s.pc) = .error f) : step s = .fault f := by
  rw [step_of_prog h h', hf]

/-- A step that answers a next state ran one instruction of a loaded image on the wrapped state. -/
theorem step_next_cases {s t : State} (h : step s = .next t) :
    ∃ image i, s.fatal = none ∧ s.prog = some image ∧
      fetch s.cfg image (windowPc s.cfg image s.pc) = .ok i ∧
      exec i { s with pc := windowPc s.cfg image s.pc } = .next t := by
  by_cases hf : s.fatal = none
  · rcases Option.eq_none_or_eq_some s.prog with hp | ⟨image, hp⟩
    · simp [step_of_no_prog hf hp] at h
    · rw [step_of_prog hf hp] at h
      split at h
      · simp at h
      · exact ⟨image, _, hf, hp, ‹_›, h⟩
  · simp [step_of_terminated hf] at h

/-- What a completed step can have written: MemoryImage below address 256 (by a STA), pc, A, and one more on the cycle
counter. -/
theorem step_next_frame {s t : State} (h : step s = .next t) :
    (∃ m pc a, t = { s with mem := m, pc := pc, a := a, cycles := s.cycles + 1 }) ∧
      (t.mem = s.mem ∨ ∃ addr, addr < 256 ∧ addr < s.cfg.memSize ∧ t.mem = Memory.write s.cfg s.mem addr s.a) := by
  obtain ⟨image, i, -, -, -, he⟩ := step_next_cases h
  obtain ⟨ht, hb⟩ := exec_next_cases he
  refine ⟨⟨_, _, _, ht⟩, ?_⟩
  cases i with
  | sta addr8 =>
    have := addr8.isLt
    have hlt := hb addr8 rfl
    rw [effectiveAddr_eq] at hlt
    exact .inr ⟨addr8.toNat, by omega, hlt, by rw [ht]; simp [memAfter, effectiveAddr_eq]⟩
  | lda | jmp | nop => exact .inl (by rw [ht]; rfl)

/-- Why a step faults: its fetch, or a STA outside MemoryImage. -/
theorem step_fault_cases {s : State} {f : Fault} (h : step s = .fault f) :
    ∃ image, s.fatal = none ∧ s.prog = some image ∧
      (fetch s.cfg image (windowPc s.cfg image s.pc) = .error f ∨
        ∃ addr8, fetch s.cfg image (windowPc s.cfg image s.pc) = .ok (.sta addr8) ∧
          s.cfg.memSize ≤ effectiveAddr addr8 ∧ f = .addressOutOfRange (effectiveAddr addr8)) := by
  by_cases hf : s.fatal = none
  · rcases Option.eq_none_or_eq_some s.prog with hp | ⟨image, hp⟩
    · simp [step_of_no_prog hf hp] at h
    · refine ⟨image, hf, hp, ?_⟩
      rw [step_of_prog hf hp] at h
      split at h
      · exact .inl (by simp_all)
      · rename_i i hi
        rcases exec_cases i { s with pc := windowPc s.cfg image s.pc } with ⟨t, ht⟩ | ⟨addr8, rfl, hb, he⟩
        · simp [ht] at h
        · exact .inr ⟨addr8, hi, hb, by simpa [he] using h.symm⟩
  · simp [step_of_terminated hf] at h

/-- A step is refused only on a state that is not runnable. -/
theorem step_refused_cases {s : State} {r : Refusal} (h : step s = .refused r) :
    (s.fatal ≠ none ∧ r = .terminated) ∨ (s.fatal = none ∧ s.prog = none ∧ r = .notRunnable) := by
  by_cases hf : s.fatal = none
  · rcases Option.eq_none_or_eq_some s.prog with hp | ⟨image, hp⟩
    · exact .inr ⟨hf, hp, by simpa [step_of_no_prog hf hp] using h.symm⟩
    · rw [step_of_prog hf hp] at h
      split at h
      · simp at h
      · rename_i i hi
        rcases exec_cases i { s with pc := windowPc s.cfg image s.pc } with ⟨t, ht⟩ | ⟨addr8, -, -, he⟩ <;> simp_all
  · exact .inl ⟨hf, by simpa [step_of_terminated hf] using h.symm⟩

end Sys2Proof.Machine
end

