-- ==== Sys2Proof/Laws/Tick.lean ====
section
/-! SUPPORT. The tick pass: one induction over the budget, and what the position update and a pass can do. -/

namespace Sys2Proof.Machine

@[simp] theorem runBudget_zero (s : State) : runBudget 0 s = .completed s := rfl

theorem runBudget_succ (k : Nat) (s : State) :
    runBudget (k + 1) s = match step s with
      | .next s' => runBudget k s'
      | .fault f => .faulted (terminate (wrapPc s) f) f
      | .refused r => .refused r := rfl

/-- No step of the machine answers the state itself. -/
@[simp] theorem core_run_zero (s : State) : Host.Core.run Sys2Proof.core 0 s = .next s := rfl

/-- Steps of the machine one after the other: the first, then the rest. -/
theorem core_run_succ (k : Nat) (s : State) :
    Host.Core.run Sys2Proof.core (k + 1) s = match step s with
      | .next s' => Host.Core.run Sys2Proof.core k s'
      | .fault f => .fault f
      | .refused r => .refused r := by
  rcases h : step s with t | f | r <;>
    (have hc : Sys2Proof.core.step s = _ := h; simp only [Host.Core.run, hc])

/-- The induction over the budget: a relation to the number of completed steps that every completed step carries on holds
where the steps end, completed or at the state whose step faults or is refused. -/
theorem runBudget_induct (R : Nat → State → Prop) (hstep : ∀ n s t, R n s → step s = .next t → R (n + 1) t) :
    ∀ k n s, R n s →
      (∃ t, runBudget k s = .completed t ∧ R (n + k) t) ∨
      (∃ j u f, j < k ∧ R (n + j) u ∧ step u = .fault f ∧ runBudget k s = .faulted (terminate (wrapPc u) f) f) ∨
      (∃ j u r, j < k ∧ R (n + j) u ∧ step u = .refused r ∧ runBudget k s = .refused r) := by
  intro k
  induction k with
  | zero => exact fun n s h => .inl ⟨s, rfl, h⟩
  | succ k ih =>
    intro n s h
    rw [runBudget_succ]
    rcases hs : step s with t | f | r
    · rcases ih (n + 1) t (hstep n s t h hs) with ⟨t', h1, h2⟩ | ⟨j, u, f, hj, h1, h2, h3⟩ | ⟨j, u, r, hj, h1, h2, h3⟩
      · exact .inl ⟨t', h1, by rwa [Nat.add_right_comm] at h2⟩
      · exact .inr (.inl ⟨j + 1, u, f, by omega, by rwa [Nat.add_right_comm] at h1, h2, h3⟩)
      · exact .inr (.inr ⟨j + 1, u, r, by omega, by rwa [Nat.add_right_comm] at h1, h2, h3⟩)
    · exact .inr (.inl ⟨0, s, f, by omega, h, hs, rfl⟩)
    · exact .inr (.inr ⟨0, s, r, by omega, h, hs, rfl⟩)

/-- Steps one after the other: the first `j` of them, then the rest. -/
theorem runBudget_add {j : Nat} {s t : State} (h : runBudget j s = .completed t) (k : Nat) :
    runBudget (j + k) s = runBudget k t := by
  induction j generalizing s with
  | zero => simp only [runBudget_zero, PassOutcome.completed.injEq] at h; subst h; rw [Nat.zero_add]
  | succ j ih =>
    rw [runBudget_succ] at h
    rw [Nat.add_right_comm, runBudget_succ]
    rcases hs : step s with t' | f | r <;> simp only [hs] at h
    · exact ih h
    · cases h
    · cases h

theorem clamp_bounds {v lo hi : Int} (h : lo ≤ hi) : lo ≤ clamp v lo hi ∧ clamp v lo hi ≤ hi := by
  unfold clamp; omega

/-- An integer that fits a byte is the byte it is written as. -/
theorem toNat_ofInt_of_fits {v : Int} (h0 : 0 ≤ v) (h1 : v ≤ 255) : (BitVec.ofInt 8 v).toNat = v.toNat := by
  rw [BitVec.toNat_ofInt]; omega

/-- With the cells inside MemoryImage the position update writes the two moved positions and nothing else (R172). -/
theorem positionUpdate_eq_ok {s : State} (hx : s.cfg.cellX < s.cfg.memSize) (hy : s.cfg.cellY < s.cfg.memSize) :
    positionUpdate s = .ok { s with
      mem := Memory.write s.cfg
        (Memory.write s.cfg s.mem s.cfg.cellX (BitVec.ofInt 8 (movedX s (Memory.read s.cfg s.mem s.cfg.cellX))))
        s.cfg.cellY (BitVec.ofInt 8 (movedY s (Memory.read s.cfg s.mem s.cfg.cellY))) } := by
  simp [positionUpdate, memRead, memWrite, hx, hy]

/-- What a position update that answers ok can have written. -/
theorem positionUpdate_ok_cases {s t : State} (h : positionUpdate s = .ok t) :
    s.cfg.cellX < s.cfg.memSize ∧ s.cfg.cellY < s.cfg.memSize := by
  by_cases hx : s.cfg.cellX < s.cfg.memSize
  · by_cases hy : s.cfg.cellY < s.cfg.memSize
    · exact ⟨hx, hy⟩
    · simp [positionUpdate, memRead_eq_ok hx, memRead_eq_error (Nat.not_lt.1 hy)] at h
  · simp [positionUpdate, memRead_eq_error (Nat.not_lt.1 hx)] at h

/-- What a tick pass can do: all its parts, or the fault of one of its steps (R170, R176), or, with a cell outside
MemoryImage, the fault of the position update, or a step's refusal. -/
theorem tickPass_cases (s : State) :
    (∃ u v, runBudget s.cfg.budget s = .completed u ∧ positionUpdate u = .ok v ∧ tickPass s = .completed (drawFrame v)) ∨
      (∃ u f, runBudget s.cfg.budget s = .faulted u f ∧ tickPass s = .faulted u f) ∨
      (∃ u f, runBudget s.cfg.budget s = .completed u ∧ positionUpdate u = .error f ∧
        tickPass s = .faulted (terminate u f) f) ∨
      ∃ r, runBudget s.cfg.budget s = .refused r ∧ tickPass s = .refused r := by
  unfold tickPass
  rcases h : runBudget s.cfg.budget s with u | ⟨u, f⟩ | r
  · rcases hp : positionUpdate u with f | v
    · exact .inr (.inr (.inl ⟨u, f, rfl, hp, by simp [hp]⟩))
    · exact .inl ⟨u, v, rfl, hp, by simp [hp]⟩
  · exact .inr (.inl ⟨u, f, rfl, rfl⟩)
  · exact .inr (.inr (.inr ⟨r, rfl, rfl⟩))

/-- What `s` and a state the steps of its pass reach share: all that no step writes, and MemoryImage from address 256 on. -/
def StepsFrame (s t : State) : Prop :=
  t.cfg = s.cfg ∧ t.prog = s.prog ∧ t.input = s.input ∧ t.lastTick = s.lastTick ∧ t.slot = s.slot ∧ t.frame = s.frame ∧
    t.fatal = s.fatal ∧ ∀ addr, 256 ≤ addr → Memory.read t.cfg t.mem addr = Memory.read s.cfg s.mem addr

theorem StepsFrame.refl (s : State) : StepsFrame s s := ⟨rfl, rfl, rfl, rfl, rfl, rfl, rfl, fun _ _ => rfl⟩

theorem StepsFrame.step {s t u : State} (h : StepsFrame s t) (hs : Machine.step t = .next u) : StepsFrame s u := by
  obtain ⟨hc, hp, hi, hl, hsl, hf, hft, hm⟩ := h
  obtain ⟨⟨m, pc, a, rfl⟩, hmem⟩ := step_next_frame hs
  refine ⟨hc, hp, hi, hl, hsl, hf, hft, fun addr ha => ?_⟩
  rw [← hm addr ha]
  rcases hmem with hmem | ⟨b, hb, -, hmem⟩
  · exact congrArg (fun m => Memory.read t.cfg m addr) hmem
  · exact (congrArg (fun m => Memory.read t.cfg m addr) hmem).trans (Memory.read_write_other _ _ (by omega))

/-- What the steps of a pass can have written where they end (R120, R177). -/
theorem runBudget_frame (k : Nat) (s : State) :
    (∀ t, runBudget k s = .completed t → StepsFrame s t ∧ t.cycles = s.cycles + k) ∧
      ∀ t f, runBudget k s = .faulted t f → ∃ u, StepsFrame s u ∧ step u = .fault f ∧ t = terminate (wrapPc u) f := by
  rcases runBudget_induct (fun n t => StepsFrame s t ∧ t.cycles = s.cycles + n)
      (fun n t u h hs => by
        refine ⟨h.1.step hs, ?_⟩
        obtain ⟨⟨m, pc, a, rfl⟩, -⟩ := step_next_frame hs
        show t.cycles + 1 = _
        omega) k 0 s ⟨StepsFrame.refl s, rfl⟩ with
    ⟨u, hu, hr⟩ | ⟨j, u, f, -, hr, hf, hu⟩ | ⟨j, u, r, -, -, -, hu⟩ <;> rw [hu]
  · exact ⟨by rintro _ ⟨rfl⟩; simpa using hr, by rintro _ _ ⟨⟩⟩
  · exact ⟨by rintro _ ⟨⟩, by rintro _ _ ⟨rfl, rfl⟩; exact ⟨u, hr.1, hf, rfl⟩⟩
  · exact ⟨by rintro _ ⟨⟩, by rintro _ _ ⟨⟩⟩

/-- What a pass that completed can have written: the pc, A, BUDGET on the cycle counter, the frame, and of MemoryImage what a STA can
name and the position cells (R171, R177). -/
theorem tickPass_completed_frame {s t : State} (h : tickPass s = .completed t) :
    t.cfg = s.cfg ∧ t.prog = s.prog ∧ t.input = s.input ∧ t.lastTick = s.lastTick ∧ t.slot = s.slot ∧ t.fatal = s.fatal ∧
      t.cycles = s.cycles + s.cfg.budget ∧
      ∀ addr, 256 ≤ addr → addr ≠ s.cfg.cellX → addr ≠ s.cfg.cellY →
        Memory.read t.cfg t.mem addr = Memory.read s.cfg s.mem addr := by
  rcases tickPass_cases s with ⟨u, v, hr, hv, ht⟩ | ⟨u, f, -, ht⟩ | ⟨u, f, -, -, ht⟩ | ⟨r, -, ht⟩ <;> rw [ht] at h <;> cases h
  obtain ⟨⟨hc, hp, hi, hl, hsl, -, hft, hm⟩, hcy⟩ := (runBudget_frame _ _).1 u hr
  obtain ⟨hx, hy⟩ := positionUpdate_ok_cases hv
  rw [positionUpdate_eq_ok hx hy] at hv
  cases hv
  refine ⟨hc, hp, hi, hl, hsl, hft, hcy, fun addr ha hax hay => ?_⟩
  rw [← hm addr ha]
  exact (Memory.read_write_other _ _ (by rw [hc]; exact hay)).trans (Memory.read_write_other _ _ (by rw [hc]; exact hax))

/-- What a pass that faulted can have written: the same without the position update and the frame, and the terminated bit
(R176, R274). -/
theorem tickPass_faulted_frame {s t : State} {f : Fault} (h : tickPass s = .faulted t f) :
    t.cfg = s.cfg ∧ t.prog = s.prog ∧ t.input = s.input ∧ t.lastTick = s.lastTick ∧ t.slot = s.slot ∧ t.frame = s.frame ∧
      t.fatal = some f ∧ ∀ addr, 256 ≤ addr → Memory.read t.cfg t.mem addr = Memory.read s.cfg s.mem addr := by
  rcases tickPass_cases s with ⟨u, v, -, -, ht⟩ | ⟨u, g, hr, ht⟩ | ⟨u, g, hr, -, ht⟩ | ⟨r, -, ht⟩ <;> rw [ht] at h <;> cases h
  · obtain ⟨u, ⟨hc, hp, hi, hl, hsl, hf, -, hm⟩, -, rfl⟩ := (runBudget_frame _ _).2 _ _ hr
    simpa using ⟨hc, hp, hi, hl, hsl, hf, hm⟩
  · obtain ⟨⟨hc, hp, hi, hl, hsl, hf, -, hm⟩, -⟩ := (runBudget_frame _ _).1 u hr
    simpa using ⟨hc, hp, hi, hl, hsl, hf, hm⟩

end Sys2Proof.Machine
end

