-- ==== Sys2Proof/Laws/Commands.lean ====
section
/-! SUPPORT. What each host command can do (49_host_interface.md R258), one lemma for each. -/

namespace Sys2Proof.Machine

/-- A terminated core takes no command (R274). -/
theorem command_of_terminated {s : State} (h : s.fatal ≠ none) (cmd : Command) :
    command cmd s = .refused .terminated := by
  have ht := (terminated_iff s).2 h
  cases cmd <;>
    simp [command, cmdLoadProgram, cmdReset, cmdSetButton, cmdTick, cmdCurrentFrame, cmdSaveState, cmdLoadState, ht]

/-- With the three cells inside MemoryImage an image is installed and the cells are zeroed. -/
theorem installImage_eq_done {s : State} (hd : s.cfg.cellDir < s.cfg.memSize) (hx : s.cfg.cellX < s.cfg.memSize)
    (hy : s.cfg.cellY < s.cfg.memSize) (image : List Byte) (reply : Reply) :
    installImage s image reply = .done { s with
      prog := some image
      mem := Memory.write s.cfg (Memory.write s.cfg (Memory.write s.cfg s.mem s.cfg.cellDir 0) s.cfg.cellX 0)
        s.cfg.cellY 0 } reply := by
  simp [installImage, memWrite, hd, hx, hy]

/-- What installing an image can have written, whether it ends with its reply or with the fault of a cell outside MemoryImage: the
image and the three cells (R250, R253). -/
theorem installImage_cases (s : State) (image : List Byte) (reply : Reply) :
    ∃ m, (∀ addr, addr ≠ s.cfg.cellX → addr ≠ s.cfg.cellY → addr ≠ s.cfg.cellDir →
        Memory.read s.cfg m addr = Memory.read s.cfg s.mem addr) ∧
      (installImage s image reply = .done { s with prog := some image, mem := m } reply ∨
        ∃ f, installImage s image reply = .fault { s with prog := some image, mem := m, fatal := some f } f) := by
  by_cases hd : s.cfg.cellDir < s.cfg.memSize
  · by_cases hx : s.cfg.cellX < s.cfg.memSize
    · by_cases hy : s.cfg.cellY < s.cfg.memSize
      · exact ⟨_, fun addr ax ay ad => ((Memory.read_write_other _ _ ay).trans (Memory.read_write_other _ _ ax)).trans
          (Memory.read_write_other _ _ ad), .inl (installImage_eq_done hd hx hy image reply)⟩
      · exact ⟨_, fun addr ax _ ad => (Memory.read_write_other _ _ ax).trans (Memory.read_write_other _ _ ad),
          .inr ⟨_, by simp only [installImage, memWrite, hd, hx, hy, if_true, if_false]; rfl⟩⟩
    · exact ⟨_, fun addr _ _ ad => Memory.read_write_other _ _ ad,
        .inr ⟨_, by simp only [installImage, memWrite, hd, hx, if_true, if_false]; rfl⟩⟩
  · exact ⟨s.mem, fun _ _ _ _ => rfl, .inr ⟨_, by simp only [installImage, memWrite, hd, if_false]; rfl⟩⟩

/-- A tick of a runnable state: the first tick executes, a later one by the governor, a backwards one is refused (R190). -/
theorem command_tick_of_runnable {s : State} (hf : s.fatal = none) (hp : s.prog ≠ none) (now : Millis) :
    command (.tick now) s =
      match s.lastTick with
      | none => executeTick now s
      | some last =>
        if now.toNat < last.toNat then .refused .timeBackwards
        else if tickDue s.cfg last now then executeTick now s
        else .done s .ok := by
  cases hl : s.lastTick <;> simp [command, cmdTick, terminated_of_fatal hf, hp, hl]

/-- What a tick can do at all. -/
theorem command_tick_cases (now : Millis) (s : State) :
    (∃ r, command (.tick now) s = .refused r) ∨ command (.tick now) s = .done s .ok ∨
      (s.fatal = none ∧ s.prog ≠ none ∧ command (.tick now) s = executeTick now s) := by
  by_cases hf : s.fatal = none
  · by_cases hp : s.prog = none
    · exact .inl ⟨.notRunnable, by simp [command, cmdTick, terminated_of_fatal hf, hp]⟩
    · rw [command_tick_of_runnable hf hp]
      split
      · exact .inr (.inr ⟨hf, hp, rfl⟩)
      · split
        · exact .inl ⟨_, rfl⟩
        · split
          · exact .inr (.inr ⟨hf, hp, rfl⟩)
          · exact .inr (.inl rfl)
  · exact .inl ⟨_, command_of_terminated hf _⟩

theorem runCommands_nil (s : State) : runCommands [] s = .ended s [] := rfl

end Sys2Proof.Machine
end

