-- ==== Sys2Proof/Laws/Config.lean ====
section
/-! SUPPORT. The constraints of a well-formed configuration (00_scope.md R10), each as a fact to cite. -/

namespace Sys2Proof

variable {c : Config}

theorem Config.wf_iff : c.wf = true ↔
    c.opcodesOk = true ∧ c.cellsOk = true ∧ c.buttonsOk = true ∧ c.spriteOk = true ∧ c.entryOk = true ∧ c.demoOk = true ∧
      c.sizesOk = true ∧ c.posResetOk = true := by
  simp [Config.wf, and_assoc]

theorem Config.opcodesOk_of_wf (h : c.wf = true) : c.opcodesOk = true := (Config.wf_iff.1 h).1

theorem Config.cells_of_wf (h : c.wf = true) :
    c.cellX < c.memSize ∧ c.cellY < c.memSize ∧ c.cellDir < c.memSize ∧
      c.cellX ≠ c.cellY ∧ c.cellX ≠ c.cellDir ∧ c.cellY ≠ c.cellDir := by
  have h := (Config.wf_iff.1 h).2.1
  simp only [Config.cellsOk, Bool.and_eq_true, bne_iff_ne, decide_eq_true_eq] at h
  tauto

theorem Config.buttons_of_wf (h : c.wf = true) :
    c.btnUp < c.numButtons ∧ c.btnDown < c.numButtons ∧ c.btnLeft < c.numButtons ∧ c.btnRight < c.numButtons := by
  have h := (Config.wf_iff.1 h).2.2.1
  simp only [Config.buttonsOk, Bool.and_eq_true, decide_eq_true_eq] at h
  tauto

theorem Config.sprite_of_wf (h : c.wf = true) :
    c.sprite ≤ c.width ∧ c.sprite ≤ c.height ∧ c.width - c.sprite ≤ 255 ∧ c.height - c.sprite ≤ 255 := by
  have h := (Config.wf_iff.1 h).2.2.2.1
  simp only [Config.spriteOk, Bool.and_eq_true, decide_eq_true_eq] at h
  tauto

theorem Config.entry_of_wf (h : c.wf = true) : 0 < c.entry.toNat := by
  simpa [Config.entryOk] using (Config.wf_iff.1 h).2.2.2.2.1

theorem Config.demoOk_iff : c.demoOk = true ↔ 1 ≤ c.demoImage.length ∧ c.demoImage.length ≤ c.progMax := by
  simp [Config.demoOk]

theorem Config.demo_of_wf (h : c.wf = true) : 1 ≤ c.demoImage.length ∧ c.demoImage.length ≤ c.progMax :=
  Config.demoOk_iff.1 (Config.wf_iff.1 h).2.2.2.2.2.1

theorem Config.sizes_of_wf (h : c.wf = true) : 1 ≤ c.tickHz ∧ 256 ≤ c.memSize ∧ c.memSize ≤ 65536 := by
  have h := (Config.wf_iff.1 h).2.2.2.2.2.2.1
  simp only [Config.sizesOk, Bool.and_eq_true, decide_eq_true_eq] at h
  tauto

theorem Config.posReset_of_wf (h : c.wf = true) :
    c.posResetX ≤ c.width - c.sprite ∧ c.posResetY ≤ c.height - c.sprite := by
  simpa [Config.posResetOk] using (Config.wf_iff.1 h).2.2.2.2.2.2.2

/-- The reference configuration's demo image has an allowed length, whatever its bytes are. -/
theorem Config.reference_demoOk : Config.reference.demoOk = true := by
  simp [Config.demoOk_iff, Config.reference, Config.progMax]

end Sys2Proof
end

