-- ==== Sys2Proof/Laws/PerInstr.lean ====
section
/-! SUPPORT. Facts of every instruction as syntax, one lemma for each constructor (LAWS.json). -/

namespace Sys2Proof.Laws.EncodingLength

/-- An instruction's encoding has the length of its class (30_encoding.md R91). -/
def Statement (i : Instr) : Prop := ∀ c : Config, (encode c i).length = i.opClass.length

theorem lda (imm8 : Byte) : Statement (.lda imm8) := fun _ => rfl

theorem sta (addr8 : Byte) : Statement (.sta addr8) := fun _ => rfl

theorem jmp (abs16 : Addr) : Statement (.jmp abs16) := fun _ => rfl

theorem nop (opcode : Byte) : Statement (.nop opcode) := fun _ => rfl

end Sys2Proof.Laws.EncodingLength
end

