-- ==== Sys2Proof/Tests/Slice0.lean ====
section
/-! SUPPORT. The model's own tests: ill-formed terms the checks refuse, decoding of words written out from the spec's formats, single
steps and commands from the vectors of 95_test_vectors.md (each named in its docstring), and a witness for the hypotheses of every
statement. -/

namespace Sys2Proof.Tests

open Sys2Proof.Machine

/-! ### Helpers -/

/-- A small configuration for tests: a 12 by 10 frame, a block of 2, a budget of 3, and the reference values elsewhere. -/
def small : Config :=
  { Config.reference with
    memSize := 512, width := 12, height := 10, sprite := 2, budget := 3, posResetX := 4, posResetY := 5, demoImage := [0xEA] }

/-- The start state S(P) of a configuration, with a pc of the test's choice. -/
def start (c : Config) (image : List Byte) (pc : Addr) : State := { State.ofConfig c with prog := some image, pc := pc }

def nextIs (o : Host.Outcome State Fault Refusal) (p : State → Bool) : Bool :=
  match o with
  | .next s => p s
  | .fault _ => false
  | .refused _ => false

def faultIs (o : Host.Outcome State Fault Refusal) (f : Fault) : Bool :=
  match o with
  | .next _ => false
  | .fault f' => decide (f' = f)
  | .refused _ => false

def doneIs (o : CommandOutcome) (p : State → Bool) : Bool :=
  match o with
  | .done s _ => p s
  | .fault _ _ => false
  | .refused _ => false

def refusedIs (o : CommandOutcome) (r : Refusal) : Bool :=
  match o with
  | .done _ _ => false
  | .fault _ _ => false
  | .refused r' => decide (r' = r)

/-! ### Well-formedness: each check refuses an ill-formed term (00_scope.md R10, 30_encoding.md R97) -/

theorem test_small_is_wf : small.wf = true := by decide
theorem test_opcodes_must_differ : { small with opcSta := 0xA9 }.wf = false := by decide
theorem test_cells_must_differ : { small with cellY := 0x0100 }.wf = false := by decide
theorem test_cells_must_be_in_memory : { small with cellDir := 512 }.wf = false := by decide
theorem test_buttons_must_differ : { small with btnLeft := 4 }.wf = false := by decide
theorem test_buttons_must_exist : { small with btnUp := 16 }.wf = false := by decide
theorem test_sprite_must_fit : { small with sprite := 11 }.wf = false := by decide
theorem test_position_must_fit_a_byte : { small with width := 258 }.wf = false := by decide
theorem test_entry_must_be_positive : { small with entry := 0 }.wf = false := by decide
theorem test_demo_must_not_be_empty : { small with demoImage := [] }.wf = false := by decide
theorem test_demo_must_fit : { small with entry := 0xFFFF, demoImage := [0, 0] }.wf = false := by decide
theorem test_rate_must_be_positive : { small with tickHz := 0 }.wf = false := by decide
theorem test_memory_must_hold_store_addresses : { small with memSize := 255 }.wf = false := by decide
theorem test_memory_must_fit_addresses : { small with memSize := 65537 }.wf = false := by decide
theorem test_reset_position_must_be_in_range : { small with posResetX := 11 }.wf = false := by decide
theorem test_nop_byte_must_not_be_an_opcode : (Instr.nop 0x85).wf Config.reference = false := by decide

/-- R276: a bad configuration is refused at construction. -/
theorem test_bad_config_is_refused : construct { small with tickHz := 0 } = .error .badConfig := by rfl

/-! ### Decoding: words written out from the formats of 30_encoding.md R92 and the opcodes of R93 -/

theorem test_decode_lda : decode Config.reference [0xA9, 0x01] = .ok (.lda 0x01, []) := by rfl
theorem test_decode_sta : decode Config.reference [0x85, 0x10, 0xEA] = .ok (.sta 0x10, [0xEA]) := by rfl
theorem test_decode_jmp : decode Config.reference [0x4C, 0x34, 0x12] = .ok (.jmp 0x1234, []) := by rfl
theorem test_decode_nop : decode Config.reference [0xEA, 0xA9] = .ok (.nop 0xEA, [0xA9]) := by rfl
theorem test_decode_missing_operand : decode Config.reference [0x4C, 0x00] = .error (.operandMissing .jmp) := by rfl
theorem test_decode_no_bytes : decode Config.reference [] = .error .noOpcode := by rfl

/-- The word `b2 ++ b1 ++ b0` of R92 for `JMP $1234`. -/
theorem test_table_word_jmp : decodeTableWord 24 0x12344C = some (.jmp 0x1234) := by decide

/-- Bits above the table's 8 are zero. -/
theorem test_table_word_opcode_only : decodeTableWord 8 0x85 = some (.sta 0) := by decide

/-- U7: under another configuration 0x4C is a NOP. -/
theorem test_decode_other_config : classOf { Config.reference with opcJmp := 0x20 } 0x4C = .nop := by decide

/-- W9: the source's seven-byte program from its assembler text (R99). -/
theorem test_assemble_source_program :
    assembleAll Config.reference ["LDA #1", "STA $10", "JMP $8000"] =
      some [0xA9, 0x01, 0x85, 0x10, 0x4C, 0x00, 0x80] := by decide

/-- R99: an operand that does not fit its field has no encoding, and `.byte` names no opcode value. -/
theorem test_assemble_rejects : assemble Config.reference "STA $100" = none ∧ assemble Config.reference "LDA #256" = none ∧
    assemble Config.reference ".byte $4C" = none ∧ assemble Config.reference "NOP" = some [0xEA] := by decide

/-! ### Single steps -/

/-- The host's question of a table word, on the state after reset. -/
theorem test_reset_runs_placed_word : nextIs (step (State.reset.withFetchWord 16 0x01A9))
    (fun s => decide (s.a = 0x01 ∧ s.pc = 0x8002 ∧ s.cycles = 1)) = true := by decide

/-- F1: after reset the wrap takes pc 0 to 0x8000, then LDA. -/
theorem test_step_lda_after_reset : nextIs (step (start Config.reference [0xA9, 0x01, 0xEA] 0))
    (fun s => decide (s.a = 0x01 ∧ s.pc = 0x8002)) = true := by decide

/-- F8 and L6, with the image at the top of program space: the pc wraps modulo 2^16. -/
theorem test_step_lda_at_top : nextIs (step (start { small with entry := 0xFFFE } [0xA9, 0x05] 0xFFFE))
    (fun s => decide (s.a = 0x05 ∧ s.pc = 0x0000)) = true := by decide

/-- S2: the highest address a STA names; the next page is untouched. -/
theorem test_step_sta_highest : nextIs (step { start Config.reference [0x85, 0xFF] 0x8000 with a := 0x01 })
    (fun s => decide (Memory.read s.cfg s.mem 0x00FF = 0x01 ∧ Memory.read s.cfg s.mem 0x0100 = 128 ∧ s.a = 0x01)) = true := by
  decide

/-- F7, S4: an opcode at the image end lacks its operand. -/
theorem test_step_sta_lacks_operand : faultIs (step { start Config.reference [0x85] 0 with a := 0x33 })
    (.operandPastImageEnd 0x8000) = true := by decide

/-- J2: little-endian target below the window, stored as it is. -/
theorem test_step_jmp_below_window : nextIs (step (start Config.reference [0x4C, 0x34, 0x12] 0x8000))
    (fun s => decide (s.pc = 0x1234 ∧ s.cycles = 1)) = true := by decide

/-- J6: two of three bytes. -/
theorem test_step_jmp_lacks_operand : faultIs (step (start Config.reference [0xEA, 0x4C, 0x00] 0x8001))
    (.operandPastImageEnd 0x8001) = true := by decide

/-- F3, F5: one past the end wraps to 0x8000, and the wrap is not counted. -/
theorem test_step_nop_wraps : nextIs (step { start Config.reference [0xEA, 0xEA, 0xEA] 0x8003 with cycles := 7, a := 0x11 })
    (fun s => decide (s.pc = 0x8001 ∧ s.cycles = 8 ∧ s.a = 0x11)) = true := by decide

/-- U5: a NOP on the last byte leaves the pc one past the end. -/
theorem test_step_nop_last_byte : nextIs (step (start Config.reference [0xEA, 0xEA, 0xFF] 0x8002))
    (fun s => decide (s.pc = 0x8003)) = true := by decide

/-! ### The tick pass, the scheduler and the latch -/

def positionAfter (s : State) : Option (Nat × Nat) :=
  match positionUpdate s with
  | .ok t => some ((Memory.read t.cfg t.mem 0x0100).toNat, (Memory.read t.cfg t.mem 0x0101).toNat)
  | .error _ => none

/-- The state after reset with some buttons pressed and the position cells at (x, y). -/
def placed (ids : List Nat) (x y : Byte) : State :=
  { State.reset with
    input := (List.range 16).map fun b => decide (b ∈ ids), mem := [(0x0100, x), (0x0101, y)] }

/-- T7: Up and Right. -/
theorem test_position_up_right : positionAfter (placed [4, 7] 129 113) = some (131, 111) := by decide

/-- T8, T12: clamped at the far edges. -/
theorem test_position_clamped_high : positionAfter (placed [5, 7] 235 203) = some (236, 204) := by decide

/-- T10, T13: clamped at 0. -/
theorem test_position_clamped_low : positionAfter (placed [4, 6] 1 1) = some (0, 0) := by decide

/-- T14, T15: out-of-range cells are clamped, and no other button moves them. -/
theorem test_position_out_of_range :
    positionAfter (placed [0, 1, 2, 3, 8, 9, 10, 11, 12, 13, 14, 15] 250 220) = some (236, 204) := by decide

/-- P4 with a budget of 3: the second step faults, the completed one stays, nothing is drawn. -/
theorem test_tick_faults_mid_pass :
    (match command (.tick 0) (start small [0xEA, 0xA9] 0) with
      | .fault s f => decide (f = .operandPastImageEnd 0x8001 ∧ s.terminated = true ∧ s.pc = 0x8001 ∧ s.cycles = 1 ∧
          s.lastTick = some 0 ∧ Frame.pixel s.frame 5 4 = some 0x000000)
      | .done _ _ => false
      | .refused _ => false) = true := by decide

/-- An executed tick of a NOP image: the budget is counted and the block is drawn at the reset position. -/
theorem test_tick_executes : doneIs (command (.tick 5) (start small [0xEA] 0))
    (fun s => decide (s.cycles = 3 ∧ s.lastTick = some 5 ∧ Frame.pixel s.frame 5 4 = some 0xFF0000 ∧
      Frame.pixel s.frame 6 5 = some 0xFF0000 ∧ Frame.pixel s.frame 5 6 = some 0x000000)) = true := by decide

/-- R121 and the shape of P2, with a budget of 3: a tick that ends past the image end leaves the pc there, unwrapped, and of a STA and a
JMP the tick keeps A, the byte and the target. -/
theorem test_tick_leaves_last_pc :
    doneIs (command (.tick 0) (start small [0xEA, 0xEA, 0xEA] 0)) (fun s => decide (s.pc = 0x8003)) = true ∧
      doneIs (command (.tick 0) (start small [0xA9, 0x07, 0x85, 0x20, 0x4C, 0x34, 0x12] 0))
        (fun s => decide (s.pc = 0x1234 ∧ s.a = 0x07 ∧ Memory.read s.cfg s.mem 0x0020 = 0x07)) = true := by decide

/-- K2: 16 ms after the last executed tick a call is a no-op. -/
theorem test_governor_16_ms : doneIs (command (.tick 16) { start small [0xEA] 0 with lastTick := some 0 })
    (fun s => decide (s.cycles = 0 ∧ s.lastTick = some 0)) = true := by decide

/-- K2: 17 ms after it, it executes. -/
theorem test_governor_17_ms : doneIs (command (.tick 17) { start small [0xEA] 0 with lastTick := some 0 })
    (fun s => decide (s.cycles = 3 ∧ s.lastTick = some 17)) = true := by decide

/-- K6, K9. -/
theorem test_tick_refusals :
    refusedIs (command (.tick 50) { start small [0xEA] 0 with lastTick := some 100 }) .timeBackwards = true ∧
      refusedIs (command (.tick 0) (State.ofConfig small)) .notRunnable = true := by decide

/-- I2, I3, I4, I5. -/
theorem test_set_button_ids :
    doneIs (command (.setButton 99 true) State.reset) (fun s => decide (true ∉ s.input)) = true ∧
      doneIs (command (.setButton (-1) true) State.reset) (fun s => decide (true ∉ s.input)) = true ∧
      doneIs (command (.setButton 16 true) State.reset) (fun s => decide (true ∉ s.input)) = true ∧
      doneIs (command (.setButton 15 true) State.reset) (fun s => pressed s 15) = true := by decide

/-! ### Renderer, snapshots, load and reset -/

/-- G1: three pixels of the block and two just outside it, `Frame.pixel` taking the row first. -/
theorem test_render_block_edges :
    Frame.pixel (render Config.reference []) 112 128 = some 0xFF0000 ∧
      Frame.pixel (render Config.reference []) 131 147 = some 0xFF0000 ∧
      Frame.pixel (render Config.reference []) 112 148 = some 0x000000 ∧
      Frame.pixel (render Config.reference []) 132 128 = some 0x000000 := by decide

/-- G4: a clipped block. -/
theorem test_render_clipped :
    Frame.pixel (render Config.reference [(0x0100, 250), (0x0101, 220)]) 223 255 = some 0xFF0000 ∧
      Frame.pixel (render Config.reference [(0x0100, 250), (0x0101, 220)]) 219 255 = some 0x000000 := by decide

/-- R214: the channels of the default block colour. -/
theorem test_rgb_channels : Rgb.red 0xFF0000 = 0xFF ∧ Rgb.green 0xFF0000 = 0 ∧ Rgb.blue 0xFF0000 = 0 := by decide

/-- N1, N5. -/
theorem test_snapshot_errors :
    command .saveState (State.ofConfig small) = .done (State.ofConfig small) (.err .unavailable) ∧
      command (.loadState { mem := List.replicate 100 0, pc := 0, a := 0, cycles := 0 }) (State.ofConfig small) =
        .done (State.ofConfig small) (.err .incompatibleSnapshot) := ⟨rfl, rfl⟩

/-- H1: the demo image is installed, the cells are zeroed. -/
theorem test_load_empty : doneIs (command (.loadProgram none) (State.ofConfig small))
    (fun s => decide (s.prog = some [0xEA] ∧ Memory.read s.cfg s.mem 0x0100 = 0 ∧ Memory.read s.cfg s.mem 0x0101 = 0 ∧
      s.runnable = true)) = true := by decide

/-- H3, with ENTRY 0xFFFE: three bytes do not fit. -/
theorem test_load_too_large :
    refusedIs (command (.loadProgram (some [0, 0, 0])) (State.ofConfig { small with entry := 0xFFFE })) .imageTooLarge = true := by
  decide

/-- H6, W2: reset puts the cells back and keeps the image. -/
theorem test_reset_command :
    doneIs (command .reset { placed [] 0 0 with prog := some [0xEA], pc := 0x8002, a := 1, cycles := 1000 })
      (fun s => decide (s.pc = 0 ∧ s.a = 0 ∧ s.cycles = 0 ∧ Memory.read s.cfg s.mem 0x0100 = 128 ∧
        Memory.read s.cfg s.mem 0x0101 = 112 ∧ s.prog = some [0xEA])) = true := by decide

/-- H7, N10. -/
theorem test_terminated_refuses :
    refusedIs (command .reset (terminate State.reset (.operandPastImageEnd 0x8001))) .terminated = true ∧
      refusedIs (command .saveState (terminate State.reset (.operandPastImageEnd 0x8001))) .terminated = true := by decide

/-! ### Witnesses: a state and operands that meet every hypothesis of each statement -/

/-- The legal states of the witnesses: any image of one to 32768 bytes on the small configuration. -/
theorem witness_inv (image : List Byte) (pc : Addr) (h : 1 ≤ image.length ∧ image.length ≤ 32768) :
    (start small image pc).Inv where
  config := (by decide : small.wf = true)
  memory := rfl
  image := by
    have hp : small.progMax = 32768 := by decide
    rintro _ ⟨rfl⟩
    rw [show (start small image pc).cfg.progMax = small.progMax from rfl, hp]
    exact h
  inputs := (by decide : (State.ofConfig small).input.length = small.numButtons)
  frame := (by decide : Frame.sized small (State.ofConfig small).frame = true)
  snapshot := by rintro _ ⟨⟩

/-- The same without an image, and with a tick recorded. -/
theorem witness_inv_unloaded : (State.ofConfig small).Inv where
  config := by decide
  memory := by decide
  image := by rintro _ ⟨⟩
  inputs := by decide
  frame := by decide
  snapshot := by rintro _ ⟨⟩

/-- ConstructionRefusesBadConfigurations, both clauses; ConstructionState. -/
theorem witness_construction : small.wf = true ∧ construct small = .ok (State.ofConfig small) ∧
    { small with entry := 0xFFFF, demoImage := [0] }.wf = true ∧ { small with entry := 0 }.wf = false :=
  ⟨by decide, rfl, by decide, by decide⟩

/-- MemReadAfterMemWrite and MemAccessOutOfRangeFaults, at the last address inside and the first outside. -/
theorem witness_memory_bounds : Memory.wf small (State.ofConfig small).mem = true ∧ 511 < (State.ofConfig small).cfg.memSize ∧
    (State.ofConfig small).cfg.memSize ≤ 512 := by decide

/-- StepWritesNoProgramAndNoHighMemory, CompletedStepCountsOnce, StepKeepsInvariant: a step that completes. -/
theorem witness_step_completes : (start small [0x85, 0x10] 0).Inv ∧ ∃ t, step (start small [0x85, 0x10] 0) = .next t :=
  ⟨witness_inv _ _ (by decide), _, rfl⟩

/-- LengthIsDecidedByOpcodeAlone: exactly enough bytes, and one too few. -/
theorem witness_lengths : (∃ r, decode small [0x4C, 1, 2] = .ok r) ∧ (∃ e, decode small [0x4C, 1] = .error e) :=
  ⟨⟨_, rfl⟩, _, rfl⟩

/-- DecodeOfEncodeIsIdentity, EncodeOfDecodeIsIdentity. -/
theorem witness_encoding : small.opcodesOk = true ∧ (Instr.jmp 0xFFFF).wf small = true ∧ (Instr.nop 0x4D).wf small = true ∧
    decode small (encode small (.jmp 0xFFFF) ++ [7]) = .ok (.jmp 0xFFFF, [7]) := ⟨by decide, by decide, by decide, rfl⟩

/-- AssembledTextDecodes: the spec's own spellings as numbers written out, and each field at both sides of its bound. -/
theorem witness_assemble : small.opcodesOk = true ∧
    ['F', 'F'].map Char.toLower = List.replicate 0 '0' ++ Nat.toDigits 16 0xFF ∧
    ['0', '0', '0', '0'].map Char.toLower = List.replicate 3 '0' ++ Nat.toDigits 16 0 ∧
    assemble small "STA $FF" = some [0x85, 0xFF] ∧ assemble small "STA $00" = some [0x85, 0x00] ∧
    assemble small "STA $100" = none ∧ assemble small "JMP $ffFF" = some [0x4C, 0xFF, 0xFF] ∧
    assemble small "JMP $0000" = some [0x4C, 0x00, 0x00] ∧ assemble small "JMP $10000" = none ∧
    assemble small "LDA #255" = some [0xA9, 0xFF] ∧ assemble small "LDA #$F0" = some [0xA9, 0xF0] ∧
    assemble small "LDA #$100" = none ∧ assemble small ".byte $00" = some [0x00] ∧ assemble small ".byte $a9" = none := by
  decide

/-- StepRunsDecodedInstruction: the wrapped fetch address after reset. -/
theorem witness_step_decoded : (start small [0xA9, 7, 0xEA] 0).FetchesAt [0xA9, 7, 0xEA] 0x8000 0 ∧
    decode small ([0xA9, 7, 0xEA].drop 0) = .ok (.lda 7, [0xEA]) := ⟨⟨rfl, rfl, by decide, by decide, by decide⟩, rfl⟩

/-- StepRunsEncodedInstruction: the second instruction of an image. -/
theorem witness_step_encoded : small.opcodesOk = true ∧ (Instr.sta 0xFF).wf small = true ∧
    (start small ([0xEA] ++ encode small (.sta 0xFF) ++ []) 0x8001).FetchesAt ([0xEA] ++ encode small (.sta 0xFF) ++ [])
      0x8001 ([0xEA] : List Byte).length := ⟨by decide, by decide, ⟨rfl, rfl, by decide, by decide, by decide⟩⟩

/-- PcOutsideWindowWrapsToEntry: just below the window, and just past it. -/
theorem witness_wrap :
    (start small [0xEA] 0x7FFF).prog = some [0xEA] ∧
      ¬ (small.entry.toNat ≤ (start small [0xEA] 0x7FFF).pc.toNat ∧
        (start small [0xEA] 0x7FFF).pc.toNat < small.entry.toNat + 1) ∧
      ¬ (small.entry.toNat ≤ (start small [0xEA] 0x8001).pc.toNat ∧
        (start small [0xEA] 0x8001).pc.toNat < small.entry.toNat + 1) := by decide

/-- OperandPastImageEndFaults and the fault clauses of the image statements: the opcode on the last byte; and its other clause at the
boundary, where the operand is the last byte. -/
theorem witness_operand_past_end : (start small [0xEA, 0xA9] 0x8001).FetchesAt [0xEA, 0xA9] 0x8001 1 ∧
    ([0xEA, 0xA9] : List Byte)[1]? = some 0xA9 ∧
    small.entry.toNat + 2 < (0x8001 : Addr).toNat + (classOf small 0xA9).length ∧
    (start small [0xA9, 0xEA] 0).FetchesAt [0xA9, 0xEA] 0x8000 0 ∧ ([0xA9, 0xEA] : List Byte)[0]? = some 0xA9 ∧
    (0x8000 : Addr).toNat + (classOf small 0xA9).length ≤ small.entry.toNat + 2 :=
  ⟨⟨rfl, rfl, by decide, by decide, by decide⟩, by decide, by decide, ⟨rfl, rfl, by decide, by decide, by decide⟩, by decide,
    by decide⟩

/-- FetchStaysInsideWindow. -/
theorem witness_fetch : 1 ≤ ([0x4C, 0, 0x80] : List Byte).length ∧ fetch small [0x4C, 0, 0x80] (windowPc small [0x4C, 0, 0x80] 0) =
    .ok (.jmp 0x8000) := ⟨by decide, rfl⟩

/-- RunnableStepCompletesOrLacksOperand. -/
theorem witness_runnable_step : (start small [0xEA] 0).Inv ∧ (start small [0xEA] 0).FetchesAt [0xEA] 0x8000 0 :=
  ⟨witness_inv _ _ (by decide), ⟨rfl, rfl, by decide, by decide, by decide⟩⟩

/-- StaStoresTheAccumulator: a state with the smallest MemoryImage R10 allows. -/
theorem witness_sta :
    let s : State := State.ofConfig { small with memSize := 256, cellX := 0, cellY := 1, cellDir := 2 }
    Memory.wf s.cfg s.mem = true ∧ 256 ≤ s.cfg.memSize ∧ s.cfg.wf = true ∧ effectiveAddr 0xFF < s.cfg.memSize := by decide

/-- LegalStatesStopNoInstruction: a legal state, one that runs a program and one with none. -/
theorem witness_legal_states : (start small [0x85, 0xFF] 0).Inv ∧ (State.ofConfig small).Inv :=
  ⟨witness_inv _ _ (by decide), witness_inv_unloaded⟩

/-- StepNeverReadsMemoryImage: a step that stores takes A whatever the two memories hold, at an address where they differ too. -/
theorem witness_step_stores :
    let s : State := { start small [0x85, 0x10] 0 with a := 9 }
    nextIs (step { s with mem := [(0x10, 5)] }) (fun t => decide (t.mem = [(0x10, 9)])) = true ∧
      nextIs (step { s with mem := [(0x10, 7)] }) (fun t => decide (t.mem = [(0x10, 9)])) = true := by decide

/-- LdaStepFromImage: an operand that is there, an opcode value itself, and one that is not. -/
theorem witness_lda_image :
    (start small [0xA9, 0x85] 0).FetchesAt [0xA9, 0x85] 0x8000 0 ∧ ([0xA9, 0x85] : List Byte)[0]? = some small.opcLdi ∧
      ([0xA9, 0x85] : List Byte)[1]? = some 0x85 ∧
      (start small [0xA9] 0).FetchesAt [0xA9] 0x8000 0 ∧ small.entry.toNat + 1 < (0x8000 : Addr).toNat + 2 :=
  ⟨⟨rfl, rfl, by decide, by decide, by decide⟩, by decide, by decide, ⟨rfl, rfl, by decide, by decide, by decide⟩, by decide⟩

/-- StaStepFromImage, likewise. -/
theorem witness_sta_image :
    (start small [0x85, 0xFF] 0).Inv ∧ (start small [0x85, 0xFF] 0).FetchesAt [0x85, 0xFF] 0x8000 0 ∧
      ([0x85, 0xFF] : List Byte)[0]? = some small.opcSta ∧ ([0x85, 0xFF] : List Byte)[1]? = some 0xFF ∧
      (start small [0x85] 0).FetchesAt [0x85] 0x8000 0 ∧ small.entry.toNat + 1 < (0x8000 : Addr).toNat + 2 :=
  ⟨witness_inv _ _ (by decide), ⟨rfl, rfl, by decide, by decide, by decide⟩, by decide, by decide,
    ⟨rfl, rfl, by decide, by decide, by decide⟩, by decide⟩

/-- JmpStepFromImage, likewise. -/
theorem witness_jmp_image :
    small.opcodesOk = true ∧ (start small [0x4C, 0xFF, 0xFF] 0).FetchesAt [0x4C, 0xFF, 0xFF] 0x8000 0 ∧
      ([0x4C, 0xFF, 0xFF] : List Byte)[0]? = some small.opcJmp ∧ ([0x4C, 0xFF, 0xFF] : List Byte)[1]? = some 0xFF ∧
      ([0x4C, 0xFF, 0xFF] : List Byte)[2]? = some 0xFF ∧
      (start small [0x4C, 0] 0).FetchesAt [0x4C, 0] 0x8000 0 ∧ small.entry.toNat + 2 < (0x8000 : Addr).toNat + 3 :=
  ⟨by decide, ⟨rfl, rfl, by decide, by decide, by decide⟩, by decide, by decide, by decide,
    ⟨rfl, rfl, by decide, by decide, by decide⟩, by decide⟩

/-- UnknownOpcodeStepNeverStops: the last byte of an image, next to an opcode value. -/
theorem witness_unknown_opcode : (start small [0xEA, 0xAA] 0x8001).FetchesAt [0xEA, 0xAA] 0x8001 1 ∧
    ([0xEA, 0xAA] : List Byte)[1]? = some 0xAA ∧ (0xAA : Byte) ≠ small.opcLdi ∧ (0xAA : Byte) ≠ small.opcSta ∧
    (0xAA : Byte) ≠ small.opcJmp := ⟨⟨rfl, rfl, by decide, by decide, by decide⟩, by decide, by decide, by decide, by decide⟩

/-- PositionUpdateMovesAndClamps, LoadProgramInstallsImage, EmptyLoadInstallsDemoImage, SetButtonWritesOneEntry,
SaveStateCapturesMemoryAndContext, CurrentFrameReturnsFrame: a legal live state, with and without a program; the first and last button
ids, and the first outside. -/
theorem witness_live_state : (start small [0xEA] 0).Inv ∧ (start small [0xEA] 0).fatal = none ∧ (start small [0xEA] 0).prog ≠ none ∧
    (State.ofConfig small).Inv ∧ (State.ofConfig small).fatal = none ∧ (State.ofConfig small).prog = none ∧
    (15 : Int) < small.numButtons ∧ (small.numButtons : Int) ≤ 16 :=
  ⟨witness_inv _ _ (by decide), rfl, by decide, witness_inv_unloaded, rfl, rfl, by decide, by decide⟩

/-- ExecutedTickCompletesOrFaults and the statements about executed ticks that completed: the first tick, and a later one at the threshold. -/
theorem witness_executed_tick : (start small [0xEA] 0).Inv ∧ (start small [0xEA] 0).TickExecutes 0 ∧
    (∃ t, command (.tick 0) (start small [0xEA] 0) = .done t .ok) ∧
    ({ start small [0xEA] 0 with lastTick := some 0 } : State).TickExecutes 17 :=
  ⟨witness_inv _ _ (by decide), ⟨rfl, by decide, .inl rfl⟩, ⟨_, rfl⟩, rfl, by decide, .inr ⟨0, rfl, by decide, by decide⟩⟩

/-- CommandsWriteOnlyTheirState, CommandKeepsInvariant: a command that ends with a result. -/
theorem witness_command_done : (start small [0xEA] 0).Inv ∧ ∃ t, command (.setButton 0 true) (start small [0xEA] 0) = .done t .ok :=
  ⟨witness_inv _ _ (by decide), _, rfl⟩

/-- FaultingStepEndsTick; ExecutedTickCompletesOrFaults; AtMostOnePassPerTick, CommandsWriteOnlyTheirState, OnlyTicksFaultAndOnlyOnOperands and
CommandKeepsInvariant at a fault: the second of three steps. -/
theorem witness_faulting_tick : (start small [0xEA, 0xA9] 0).Inv ∧ (start small [0xEA, 0xA9] 0).TickExecutes 0 ∧
    1 < small.budget ∧
    (∃ u, runBudget 1 { start small [0xEA, 0xA9] 0 with lastTick := some 0 } = .completed u ∧
      step u = .fault (.operandPastImageEnd 0x8001)) ∧
    ∃ t, command (.tick 0) (start small [0xEA, 0xA9] 0) = .fault t (.operandPastImageEnd 0x8001) :=
  ⟨witness_inv _ _ (by decide), ⟨rfl, by decide, .inl rfl⟩, by decide, ⟨_, rfl, rfl⟩, _, rfl⟩

/-- BudgetIsRepeatedStep: steps that complete, that fault and that are refused. -/
theorem witness_budget : (∃ u, runBudget 3 (start small [0xEA] 0) = .completed u) ∧
    (∃ t f, runBudget 3 (start small [0xEA, 0xA9] 0) = .faulted t f) ∧
    ∃ r, runBudget 3 (State.ofConfig small) = .refused r := ⟨⟨_, rfl⟩, ⟨_, _, rfl⟩, _, rfl⟩

/-- TickPassIgnoresSchedulerAndSlot: a pass that completes and one that faults. -/
theorem witness_tick_pass : (∃ t, tickPass (start small [0xEA] 0) = .completed t) ∧
    ∃ t f, tickPass (start small [0xEA, 0xA9] 0) = .faulted t f := ⟨⟨_, rfl⟩, _, _, rfl⟩

/-- AtMostOnePassPerTick: both ends of a tick with a result, one that changes nothing and one that executes. -/
theorem witness_one_pass :
    let s : State := { start small [0xEA] 0 with lastTick := some 0 }
    command (.tick 16) s = .done s .ok ∧ ∃ t, command (.tick 17) s = .done t .ok ∧ t ≠ s :=
  ⟨rfl, _, rfl, fun h => absurd (congrArg State.lastTick h) (by decide)⟩

/-- NopImageTickMovesPosition. -/
theorem witness_nop_image : (start small [0xEA, 0x00] 0).Inv ∧ (start small [0xEA, 0x00] 0).TickExecutes 0 ∧
    (start small [0xEA, 0x00] 0).prog = some [0xEA, 0x00] ∧
    ∀ op ∈ ([0xEA, 0x00] : List Byte), op ≠ small.opcLdi ∧ op ≠ small.opcSta ∧ op ≠ small.opcJmp :=
  ⟨witness_inv _ _ (by decide), ⟨rfl, by decide, .inl rfl⟩, rfl, by decide⟩

/-- GovernorThresholdIs17AtSixtyHertz, TickChecksInOrder: both sides of the threshold, and a clock that goes back. -/
theorem witness_governor :
    let s : State := { start small [0xEA] 0 with lastTick := some 100 }
    s.fatal = none ∧ s.prog ≠ none ∧ s.cfg.tickHz = 60 ∧ s.lastTick = some 100 ∧
      (100 : Millis).toNat ≤ (116 : Millis).toNat ∧ (116 : Millis).toNat - (100 : Millis).toNat < 17 ∧
      17 ≤ (117 : Millis).toNat - (100 : Millis).toNat ∧ (99 : Millis).toNat < (100 : Millis).toNat := by
  decide

/-- RenderPaintsTheBlock, WholeBlockIsVisible: the far corner pixel, and the state after reset of the small configuration. -/
theorem witness_render : 9 < small.height ∧ 11 < small.width ∧ (State.ofConfig small).Inv ∧
    (State.ofConfig small).PositionInRange ∧ small.clearColor ≠ small.spriteColor :=
  ⟨by decide, by decide, witness_inv_unloaded, ⟨by decide, by decide⟩, by decide⟩

/-- LoadStateRestoresMemoryAndContext, SnapshotRoundTrip: a snapshot of MEM_SIZE bytes, and one of another length. -/
theorem witness_snapshot :
    (List.replicate 512 (7 : Byte)).length = small.memSize ∧ ([] : List Byte).length ≠ small.memSize ∧
      ∃ t, command (.loadState { mem := List.replicate 512 7, pc := 0x1234, a := 9, cycles := 3 }) (start small [0xEA] 0) =
        .done t .ok :=
  ⟨List.length_replicate, by decide, _, by
    have hl : (List.replicate 512 (7 : Byte)).length = (start small [0xEA] 0).cfg.memSize := List.length_replicate
    have ht : (start small [0xEA] 0).terminated = false := rfl
    simp only [command, cmdLoadState, ht, hl]; rfl⟩

/-- LoadProgramInstallsImage at the boundary of its two clauses: ENTRY 0xFFFE leaves room for two bytes. -/
theorem witness_load_sizes : { small with entry := 0xFFFE }.wf = true ∧
    ([0, 0] : List Byte).length ≤ 0x10000 - ({ small with entry := 0xFFFE } : Config).entry.toNat ∧
    0x10000 - ({ small with entry := 0xFFFE } : Config).entry.toNat < ([0, 0, 0] : List Byte).length := by decide

/-- R274 on runs: no run from a terminated state is a safe one, the empty run included (log 28). -/
theorem test_terminated_is_not_safe :
    safeRun [] (terminate State.reset (.operandPastImageEnd 0x8001)) = false ∧
      safeRun [.reset] (terminate State.reset (.operandPastImageEnd 0x8001)) = false ∧ safeRun [.reset] State.reset = true := by
  decide

/-- TerminatedCoreTakesNoCommand. -/
theorem witness_terminated : (terminate (State.ofConfig small) (.operandPastImageEnd 0)).terminated = true := by decide

/-- ResetZeroesMemoryAndContext, FirstStepAfterResetFetchesAtEntry. -/
theorem witness_reset : (start small [0xEA] 0x8001).Inv ∧ small.wf = true ∧ (start small [0xEA] 0x8001).prog = some [0xEA] ∧
    ∃ t, command .reset (start small [0xEA] 0x8001) = .done t .ok :=
  ⟨witness_inv _ _ (by decide), by decide, rfl, _, rfl⟩

/-- ReachableCoresAreLegal: a core a run has loaded and then terminated, and one at its construction. -/
theorem witness_reachable : (State.ofConfig small).Reachable ∧ ∃ s : State, s.Reachable ∧ s.terminated = true :=
  ⟨⟨small, _, [], rfl, .inl ⟨[], rfl⟩⟩, _, ⟨small, _, [.loadProgram (some [0xA9]), .tick 0], rfl, .inr ⟨_, rfl⟩⟩, rfl⟩

end Sys2Proof.Tests
end

section
/-! Proofs of 20_memory.md: what a successful MemWrite does to every later MemRead, and where both accesses fault. -/

namespace Sys2Proof.Machine

variable {s t : State} {addr : Nat} {v : Byte}

/-- R65: the canonical form is what makes a write that only drops an entry read back. -/
theorem memRead_memWrite_same (hwf : Memory.wf s.cfg s.mem = true) (h : memWrite s addr v = .ok t) :
    memRead t addr = .ok v := by
  obtain ⟨haddr, rfl⟩ := memWrite_ok_cases h
  calc memRead { s with mem := Memory.write s.cfg s.mem addr v } addr
      = .ok (Memory.read s.cfg (Memory.write s.cfg s.mem addr v) addr) := memRead_eq_ok haddr
    _ = .ok v := by rw [Memory.read_write_same v hwf]

/-- The frame of R64: the accesses agree at every other address, the faulting ones outside MemoryImage included. -/
theorem memRead_memWrite_other {other : Nat} (h : memWrite s addr v = .ok t) (hne : other ≠ addr) :
    memRead t other = memRead s other := by
  obtain ⟨-, rfl⟩ := memWrite_ok_cases h
  simp only [memRead, Memory.read_write_other s.mem v hne]

theorem memWrite_keeps_wf (hwf : Memory.wf s.cfg s.mem = true) (h : memWrite s addr v = .ok t) :
    Memory.wf t.cfg t.mem = true := by
  obtain ⟨haddr, rfl⟩ := memWrite_ok_cases h
  exact Memory.write_wf v haddr hwf

end Sys2Proof.Machine
end

section
open Sys2Proof Sys2Proof.Machine

/-- Settles O2: the write succeeds inside MemoryImage, and each clause is a rule about a successful write. -/
theorem memReadAfterMemWrite : Obligations.MemReadAfterMemWrite := by
  intro s addr v hwf haddr
  have hwrite := memWrite_eq_ok v haddr
  exact ⟨_, hwrite, memRead_memWrite_same hwf hwrite, memWrite_keeps_wf hwf hwrite,
    fun _ hne => memRead_memWrite_other hwrite hne⟩

/-- Settles O3: each side of the bound MEM_SIZE by the two access rules for that side. -/
theorem memAccessOutOfRangeFaults : Obligations.MemAccessOutOfRangeFaults := by
  intro s addr v
  constructor
  · intro hout
    exact ⟨memRead_eq_error hout, memWrite_eq_error v hout⟩
  · intro hin
    exact ⟨memRead_eq_ok hin, _, memWrite_eq_ok v hin⟩

end

section
/-! Proofs of 30_encoding.md: how many bytes an instruction takes, as the opcode byte alone says. -/

namespace Sys2Proof

variable {c : Config}

/-- R91 and R97 together: the length of an opcode byte's class, by the opcode values of the configuration. -/
theorem length_classOf (op : Byte) :
    (classOf c op).length =
      if op = c.opcLdi then 2 else if op = c.opcSta then 2 else if op = c.opcJmp then 3 else 1 := by
  simp only [classOf, apply_ite OpClass.length, OpClass.length_lda, OpClass.length_sta, OpClass.length_jmp,
    OpClass.length_nop]

/-- With enough bytes the instruction is there, and what is left over starts after its length. -/
theorem decode_eq_ok_of_length_le {op : Byte} {rest : List Byte} (h : (classOf c op).length ≤ rest.length + 1) :
    ∃ i, decode c (op :: rest) = .ok (i, (op :: rest).drop (classOf c op).length) := by
  rcases decode_spec (c := c) op rest with ⟨hshort, -⟩ | ⟨-, i, -, hdecode⟩
  · exact absurd h (Nat.not_le.2 hshort)
  · exact ⟨i, by rw [hdecode, List.drop_cons (OpClass.length_pos _)]⟩

/-- With a byte missing the decoder says which class lacks it. -/
theorem decode_eq_error_of_lt_length {op : Byte} {rest : List Byte} (h : rest.length + 1 < (classOf c op).length) :
    decode c (op :: rest) = .error (.operandMissing (classOf c op)) := by
  rcases decode_spec (c := c) op rest with ⟨-, hdecode⟩ | ⟨hlong, -⟩
  · exact hdecode
  · exact absurd hlong (Nat.not_le.2 h)

end Sys2Proof
end

section
open Sys2Proof

/-- Settles O8: the stated length is that of the opcode's class, and the decoder answers on each side of it. -/
theorem lengthIsDecidedByOpcodeAlone : Obligations.LengthIsDecidedByOpcodeAlone := by
  intro c op rest
  rw [← length_classOf]
  constructor
  · exact decode_eq_ok_of_length_le
  · intro hshort r hok
    rw [decode_eq_error_of_lt_length hshort] at hok
    cases hok

end

section
/-! Proofs of 30_encoding.md: encoding and decoding are inverse to each other, and the assembler text of R99 and R100. -/

namespace Sys2Proof

open Machine (jumpTarget targetLo targetHi)

variable {c : Config}

theorem eq_opcLdi_of_classOf {op : Byte} (h : classOf c op = .lda) : op = c.opcLdi := by
  unfold classOf at h
  split_ifs at h
  assumption

theorem eq_opcSta_of_classOf {op : Byte} (h : classOf c op = .sta) : op = c.opcSta := by
  unfold classOf at h
  split_ifs at h
  assumption

theorem eq_opcJmp_of_classOf {op : Byte} (h : classOf c op = .jmp) : op = c.opcJmp := by
  unfold classOf at h
  split_ifs at h
  assumption

/-- R97: a NOP is well formed exactly when its byte has no other meaning. -/
theorem Instr.wf_nop_iff (op : Byte) : (Instr.nop op).wf c = true ↔ classOf c op = .nop := by
  rw [classOf_eq_nop_iff]
  simp [Instr.wf, and_assoc]

theorem decode_encode_append {i : Instr} (hops : c.opcodesOk = true) (hi : i.wf c = true) (rest : List Byte) :
    decode c (encode c i ++ rest) = .ok (i, rest) := by
  cases i with
  | lda imm8 => simp [encode, decode_cons, classOf_ldi]
  | sta addr8 => simp [encode, decode_cons, classOf_sta hops]
  | jmp abs16 => simp [encode, decode_cons, classOf_jmp hops]
  | nop op => simp [encode, decode_cons, (Instr.wf_nop_iff op).1 hi]

theorem wf_and_encode_append_of_decode {bytes rest : List Byte} {i : Instr} (h : decode c bytes = .ok (i, rest)) :
    i.wf c = true ∧ bytes = encode c i ++ rest := by
  cases bytes with
  | nil => cases h
  | cons op tail =>
    rw [decode_cons] at h
    split at h
    next hcls => cases h; exact ⟨rfl, by rw [eq_opcLdi_of_classOf hcls]; rfl⟩
    next hcls => cases h; exact ⟨rfl, by rw [eq_opcSta_of_classOf hcls]; rfl⟩
    next hcls => cases h; exact ⟨rfl, by rw [eq_opcJmp_of_classOf hcls]; simp [encode]⟩
    next hcls => cases h; exact ⟨(Instr.wf_nop_iff op).2 hcls, rfl⟩
    next => cases h

namespace Machine

theorem assemble_of_parse {text : String} {stmt : AsmStatement} (h : parseStatement text.toList = some stmt) :
    assemble c text = (stmt.instr c).map (encode c) := by
  simp only [assemble, h]

/-- R99: what a statement stands for is a well-formed instruction. -/
theorem AsmStatement.instr_wf {stmt : AsmStatement} {i : Instr} (h : stmt.instr c = some i) : i.wf c = true := by
  cases stmt <;> simp only [AsmStatement.instr, Option.ite_none_right_eq_some, Option.some.injEq] at h <;>
    obtain ⟨hfits, rfl⟩ := h
  case byte => exact hfits.2
  all_goals rfl

theorem assemble_eq_some {text : String} {bytes : List Byte} (h : assemble c text = some bytes) :
    ∃ i : Instr, i.wf c = true ∧ bytes = encode c i := by
  unfold assemble at h
  split at h
  next stmt _ =>
    obtain ⟨i, hi, rfl⟩ := Option.map_eq_some_iff.1 h
    exact ⟨i, AsmStatement.instr_wf hi, rfl⟩
  next => cases h

/-- Of a number below 256, being the byte `b` is being the value of `b`. -/
theorem ofNat_ne_iff_of_lt {v : Nat} (hv : v < 256) (b : Byte) : BitVec.ofNat 8 v ≠ b ↔ v ≠ b.toNat := by
  rw [Ne, ← BitVec.toNat_inj, BitVec.toNat_ofNat, Nat.mod_eq_of_lt hv]

theorem byteStatement_instr_map_encode (v : Nat) :
    ((AsmStatement.byte v).instr c).map (encode c) =
      if v < 256 ∧ v ≠ c.opcLdi.toNat ∧ v ≠ c.opcSta.toNat ∧ v ≠ c.opcJmp.toNat then some [BitVec.ofNat 8 v] else none := by
  have hiff : (v < 256 ∧ (Instr.nop (BitVec.ofNat 8 v)).wf c = true) ↔
      (v < 256 ∧ v ≠ c.opcLdi.toNat ∧ v ≠ c.opcSta.toNat ∧ v ≠ c.opcJmp.toNat) := by
    refine and_congr_right fun hv => ?_
    rw [Instr.wf_nop_iff, classOf_eq_nop_iff]
    simp only [ofNat_ne_iff_of_lt hv]
  simp only [AsmStatement.instr, hiff]
  split <;> rfl

theorem toList_append_ofList (mnemonic : String) (chs : List Char) :
    (mnemonic ++ String.ofList chs).toList = mnemonic.toList ++ chs := by
  simp

section
variable {v zeros : Nat} {chs : List Char}

theorem parseStatement_lda_decimal :
    parseStatement ("LDA #" ++ String.ofList (List.replicate zeros '0' ++ Nat.toDigits 10 v)).toList = some (.lda v) := by
  rw [toList_append_ofList]
  exact congrArg (Option.map AsmStatement.lda) (parseNumber_decimal v zeros)

variable (h : chs.map Char.toLower = List.replicate zeros '0' ++ Nat.toDigits 16 v)
include h

theorem parseStatement_lda_hex : parseStatement ("LDA #$" ++ String.ofList chs).toList = some (.lda v) := by
  rw [toList_append_ofList]
  exact congrArg (Option.map AsmStatement.lda) (parseNumber_hex h)

theorem parseStatement_sta : parseStatement ("STA $" ++ String.ofList chs).toList = some (.sta v) := by
  rw [toList_append_ofList]
  exact congrArg (Option.map AsmStatement.sta) (parseNumber_hex h)

theorem parseStatement_jmp : parseStatement ("JMP $" ++ String.ofList chs).toList = some (.jmp v) := by
  rw [toList_append_ofList]
  exact congrArg (Option.map AsmStatement.jmp) (parseNumber_hex h)

theorem parseStatement_byte : parseStatement (".byte $" ++ String.ofList chs).toList = some (.byte v) := by
  rw [toList_append_ofList]
  exact congrArg (Option.map AsmStatement.byte) (parseNumber_hex h)

end

end Machine

end Sys2Proof
end

section
open Sys2Proof Sys2Proof.Machine

/-- Settles O9: by the instruction's class, whose opcode byte selects the arm that reads its operand bytes. -/
theorem decodeOfEncodeIsIdentity : Obligations.DecodeOfEncodeIsIdentity := by
  intro c i rest hops hi
  exact decode_encode_append hops hi rest

/-- Settles O10: each accepting arm of the decoder fixes the opcode byte and the operand bytes it took. -/
theorem encodeOfDecodeIsIdentity : Obligations.EncodeOfDecodeIsIdentity := by
  intro c bytes rest i h
  exact wf_and_encode_append_of_decode h

/-- Settles O11: each form parses to its statement, and a statement's instruction is well formed, so that it decodes back. -/
theorem assembledTextDecodes : Obligations.AssembledTextDecodes := by
  intro c
  refine ⟨fun v zeros hexDigits h => ⟨?_, ?_, ?_, ?_, ?_⟩, ?_, ?_⟩
  · rw [assemble_of_parse parseStatement_lda_decimal, AsmStatement.instr, apply_ite (Option.map (encode c))]; rfl
  · rw [assemble_of_parse (parseStatement_lda_hex h), AsmStatement.instr, apply_ite (Option.map (encode c))]; rfl
  · rw [assemble_of_parse (parseStatement_sta h), AsmStatement.instr, apply_ite (Option.map (encode c))]; rfl
  · rw [assemble_of_parse (parseStatement_jmp h), AsmStatement.instr, apply_ite (Option.map (encode c))]; rfl
  · rw [assemble_of_parse (parseStatement_byte h), byteStatement_instr_map_encode]
  · rfl
  · intro text bytes hops htext
    obtain ⟨i, hi, rfl⟩ := assemble_eq_some htext
    exact ⟨i, hi, rfl, by simpa using decode_encode_append hops hi []⟩

/-- Settles O6: the reference opcodes on written-out words. -/
theorem decodesWordsOfEveryClass : Obligations.DecodesWordsOfEveryClass := by
  refine ⟨rfl, rfl, rfl, rfl, rfl, ?_, rfl⟩
  intro op hop
  have hcls : classOf Config.reference op = .nop := by
    simp only [List.mem_cons, List.not_mem_nil, or_false] at hop
    rcases hop with rfl | rfl | rfl | rfl | rfl | rfl | rfl | rfl | rfl <;> rfl
  simp only [decode_cons, hcls]

/-- Settles O7: the three opcodes differ, so the order in which they are tested does not matter. -/
theorem referenceOpcodeMap : Obligations.ReferenceOpcodeMap := by
  intro op
  by_cases hldi : op = 0xA9#8
  · subst hldi; rfl
  · by_cases hsta : op = 0x85#8
    · subst hsta; rfl
    · by_cases hjmp : op = 0x4C#8
      · subst hjmp; rfl
      · simp [classOf, Config.reference, hldi, hsta, hjmp]

end

section
/-! Proofs of 40_fetch_decode.md: the fetch address and the instruction that stands there. -/

namespace Sys2Proof

variable {c : Config}

/-- R91: no instruction is longer than three bytes, so the decoder's answer does not hang on the bytes after them. -/
theorem exists_decode_take_three {bytes rest : List Byte} {i : Instr} (h : decode c bytes = .ok (i, rest)) :
    ∃ rest', decode c (bytes.take 3) = .ok (i, rest') := by
  cases bytes with
  | nil => cases h
  | cons op tail =>
    rw [decode_cons] at h
    rw [List.take_succ_cons, decode_cons]
    split at h
    next hcls => cases h; exact ⟨_, by rw [hcls, List.take_succ_cons]⟩
    next hcls => cases h; exact ⟨_, by rw [hcls, List.take_succ_cons]⟩
    next hcls => cases h; exact ⟨_, by rw [hcls, List.take_succ_cons, List.take_succ_cons]⟩
    next hcls => cases h; exact ⟨_, by rw [hcls]⟩
    next => cases h

theorem drop_eq_cons_of_getElem? {α : Type} {l : List α} {k : Nat} {x : α} (h : l[k]? = some x) :
    l.drop k = x :: l.drop (k + 1) := by
  obtain ⟨hlt, rfl⟩ := List.getElem?_eq_some_iff.1 h
  exact List.drop_eq_getElem_cons hlt

namespace Machine

section
variable {image : List Byte} {pc : Addr}

theorem fetch_eq_ok_of_decode_drop {i : Instr} {rest : List Byte} (hin : inWindow c image pc.toNat = true)
    (h : decode c (image.drop (pc.toNat - c.entry.toNat)) = .ok (i, rest)) : fetch c image pc = .ok i := by
  obtain ⟨rest', hrest'⟩ := exists_decode_take_three h
  simp only [fetch, fetchBytes_eq hin, hrest']

/-- A fetch fails in one way only (R127). -/
theorem eq_operandPastImageEnd_of_fetch {f : Fault} (h : fetch c image pc = .error f) : f = .operandPastImageEnd pc := by
  unfold fetch at h
  split at h
  · cases h
  · cases h; rfl

end

section
variable {s : State} {image : List Byte} {w : Addr} {k : Nat}

theorem State.FetchesAt.windowPc_eq (h : s.FetchesAt image w k) : windowPc s.cfg image s.pc = w := by
  obtain ⟨-, -, -, hw, -⟩ := h
  simp only [hw, windowPc, inWindow_iff]

theorem State.FetchesAt.inWindow (h : s.FetchesAt image w k) : Machine.inWindow s.cfg image w.toNat = true := by
  have hpos : 1 ≤ image.length := h.2.2.1
  rw [← h.windowPc_eq]
  exact windowPc_inWindow hpos s.pc

theorem State.FetchesAt.sub_entry (h : s.FetchesAt image w k) : w.toNat - s.cfg.entry.toNat = k := by
  obtain ⟨-, -, -, -, hk⟩ := h
  omega

theorem State.FetchesAt.progRead_eq {op : Byte} (h : s.FetchesAt image w k) (hop : image[k]? = some op) :
    progRead s.cfg image w.toNat = op := by
  have hread := Machine.progRead_eq h.inWindow
  rw [h.sub_entry, hop] at hread
  exact (Option.some.inj hread).symm

theorem State.FetchesAt.step_of_fetch_ok {i : Instr} (h : s.FetchesAt image w k) (hi : fetch s.cfg image w = .ok i) :
    step s = exec i { s with pc := w } := by
  obtain ⟨hfatal, hprog, -⟩ := id h
  rw [← h.windowPc_eq] at hi ⊢
  exact Machine.step_of_fetch_ok hfatal hprog hi

theorem State.FetchesAt.step_of_fetch_error {f : Fault} (h : s.FetchesAt image w k) (hf : fetch s.cfg image w = .error f) :
    step s = .fault f := by
  obtain ⟨hfatal, hprog, -⟩ := id h
  rw [← h.windowPc_eq] at hf
  exact Machine.step_of_fetch_error hfatal hprog hf

theorem State.FetchesAt.wrapPc_eq (h : s.FetchesAt image w k) : wrapPc s = { s with pc := w } := by
  obtain ⟨-, hprog, -⟩ := id h
  rw [wrapPc_of_prog hprog, h.windowPc_eq, setPc]

theorem State.FetchesAt.step_of_decode {i : Instr} {rest : List Byte} (h : s.FetchesAt image w k)
    (hdecode : decode s.cfg (image.drop k) = .ok (i, rest)) : step s = exec i { s with pc := w } := by
  rw [← h.sub_entry] at hdecode
  exact h.step_of_fetch_ok (fetch_eq_ok_of_decode_drop h.inWindow hdecode)

/-- R127, one side: the opcode's class needs a byte past the image end. -/
theorem State.FetchesAt.step_eq_fault {op : Byte} (h : s.FetchesAt image w k) (hop : image[k]? = some op)
    (hshort : s.cfg.entry.toNat + image.length < w.toNat + (classOf s.cfg op).length) :
    step s = .fault (.operandPastImageEnd w) := by
  rcases fetch_cases h.inWindow with ⟨-, hfetch⟩ | ⟨hfits, -⟩
  · exact h.step_of_fetch_error hfetch
  · rw [h.progRead_eq hop] at hfits
    exact absurd hshort (Nat.not_lt.2 hfits)

/-- R127, the other side: the instruction is there whole, and it runs. -/
theorem State.FetchesAt.exists_step_eq_exec {op : Byte} (h : s.FetchesAt image w k) (hop : image[k]? = some op)
    (hfits : w.toNat + (classOf s.cfg op).length ≤ s.cfg.entry.toNat + image.length) :
    ∃ i, i.opClass = classOf s.cfg op ∧ step s = exec i { s with pc := w } := by
  rcases fetch_cases h.inWindow with ⟨hshort, -⟩ | ⟨-, i, hcls, hfetch⟩ <;> rw [h.progRead_eq hop] at *
  · exact absurd hshort (Nat.not_lt.2 hfits)
  · exact ⟨i, hcls, h.step_of_fetch_ok hfetch⟩

end

/-- No instruction raises the operand fault: the fetch has already checked (R127). -/
theorem exec_ne_operandPastImageEnd (i : Instr) (s : State) (pc : Addr) : exec i s ≠ .fault (.operandPastImageEnd pc) := by
  rcases exec_cases i s with ⟨t, ht⟩ | ⟨addr8, -, -, hfault⟩
  · simp [ht]
  · simp [hfault]

/-- A step asks for the pc only through the address it fetches at. -/
theorem step_setPc_of_windowPc_eq {s : State} {image : List Byte} {pc : Addr} (hprog : s.prog = some image)
    (hpc : windowPc s.cfg image pc = windowPc s.cfg image s.pc) : step { s with pc := pc } = step s := by
  by_cases hfatal : s.fatal = none
  · rw [step_of_prog hfatal hprog, step_of_prog (s := { s with pc := pc }) hfatal hprog]
    simp only [hpc]
  · rw [step_of_terminated hfatal, step_of_terminated (s := { s with pc := pc }) hfatal]

theorem windowPc_entry (c : Config) (image : List Byte) : windowPc c image c.entry = c.entry := by
  unfold windowPc
  split <;> rfl

/-! ### What each class does to a state -/

theorem toNat_add_ofNat (pc : Addr) (n : Nat) : (pc + BitVec.ofNat 16 n).toNat = (pc.toNat + n) % 65536 := by
  simp [BitVec.toNat_add]

theorem State.SameHostState.refl (s : State) : s.SameHostState s := ⟨rfl, rfl, rfl, rfl, rfl, rfl, rfl⟩

theorem exec_lda_result (imm8 : Byte) (s : State) : ∃ t, exec (.lda imm8) s = .next t ∧
    t.a = imm8 ∧ t.pc.toNat = (s.pc.toNat + 2) % 65536 ∧ t.cycles = s.cycles + 1 ∧ s.SameMemory t ∧ s.SameHostState t :=
  ⟨_, execLda_eq imm8 s, rfl, toNat_add_ofNat s.pc 2, rfl, fun _ => rfl, .refl s⟩

theorem exec_sta_result (addr8 : Byte) (s : State) (hwf : Memory.wf s.cfg s.mem = true) (hsize : 256 ≤ s.cfg.memSize) :
    ∃ t, exec (.sta addr8) s = .next t ∧
      Memory.read t.cfg t.mem addr8.toNat = s.a ∧ s.SameMemoryExcept t addr8.toNat ∧
      t.a = s.a ∧ t.pc.toNat = (s.pc.toNat + 2) % 65536 ∧ t.cycles = s.cycles + 1 ∧ s.SameHostState t := by
  rw [← effectiveAddr_eq]
  have haddr : effectiveAddr addr8 < s.cfg.memSize := by
    rw [effectiveAddr_eq]
    exact addr8.isLt.trans_le hsize
  exact ⟨_, execSta_eq_next haddr, Memory.read_write_same s.a hwf, fun _ hne => Memory.read_write_other s.mem s.a hne, rfl,
    toNat_add_ofNat s.pc 2, rfl, .refl s⟩

theorem exec_jmp_result (abs16 : Addr) (s : State) : ∃ t, exec (.jmp abs16) s = .next t ∧
    t.pc = abs16 ∧ t.a = s.a ∧ t.cycles = s.cycles + 1 ∧ s.SameMemory t ∧ s.SameHostState t :=
  ⟨_, execJmp_eq abs16 s, rfl, rfl, rfl, fun _ => rfl, .refl s⟩

theorem exec_nop_result (op : Byte) (s : State) : ∃ t, exec (.nop op) s = .next t ∧
    t.pc.toNat = (s.pc.toNat + 1) % 65536 ∧ t.a = s.a ∧ t.cycles = s.cycles + 1 ∧ s.SameMemory t ∧ s.SameHostState t :=
  ⟨_, execNop_eq op s, toNat_add_ofNat s.pc 1, rfl, rfl, fun _ => rfl, .refl s⟩

end Machine

end Sys2Proof
end

section
open Sys2Proof Sys2Proof.Machine

/-- Settles O12: the fetch sees the first three bytes from the fetch address on, and the decoder needs no more. -/
theorem stepRunsDecodedInstruction : Obligations.StepRunsDecodedInstruction := by
  intro s image w k i rest h hdecode
  exact h.step_of_decode hdecode

/-- Settles O13: from the encoder's side, by O9 on the bytes from the fetch address on. -/
theorem stepRunsEncodedInstruction : Obligations.StepRunsEncodedInstruction := by
  intro s before after w i hops hi h
  refine h.step_of_decode (rest := after) ?_
  rw [List.append_assoc, List.drop_left]
  exact decode_encode_append hops hi after

/-- Settles O14: ENTRY and a pc outside the window are fetched at the same address. -/
theorem pcOutsideWindowWrapsToEntry : Obligations.PcOutsideWindowWrapsToEntry := by
  intro s image hprog hout
  rw [← inWindow_iff] at hout
  have hw := windowPc_of_not_inWindow hout
  refine ⟨(step_setPc_of_windowPc_eq hprog ?_).symm, ?_⟩
  · rw [windowPc_entry, hw]
  · rw [wrapPc_of_prog hprog, hw, setPc]

/-- Settles O15: the two sides of the operand check, and that no instruction raises its fault. -/
theorem operandPastImageEndFaults : Obligations.OperandPastImageEndFaults := by
  intro s image w k op h hop
  constructor
  · intro hshort
    have hstep := h.step_eq_fault hop hshort
    refine ⟨hstep, fun n => ?_⟩
    simp only [runBudget_succ, hstep, h.wrapPc_eq, terminate]
  · intro hfits pc
    obtain ⟨i, -, hstep⟩ := h.exists_step_eq_exec hop hfits
    rw [hstep]
    exact exec_ne_operandPastImageEnd i _ pc

/-- Settles O16: the wrap puts the pc inside the window, and the operand check compares the length with the window's end. -/
theorem fetchStaysInsideWindow : Obligations.FetchStaysInsideWindow := by
  intro c image pc hpos
  have hin := windowPc_inWindow (c := c) hpos pc
  obtain ⟨hlo, hhi⟩ := (inWindow_iff _).1 hin
  refine ⟨hlo, hhi, fun i hi => ?_⟩
  rcases fetch_cases hin with ⟨-, hfetch⟩ | ⟨hfits, j, hcls, hfetch⟩
  · rw [hfetch] at hi; cases hi
  · rw [hfetch] at hi; cases hi; rwa [hcls]

/-- Settles O18: the counter is part of what every completed step writes. -/
theorem completedStepCountsOnce : Obligations.CompletedStepCountsOnce := by
  intro s t h
  obtain ⟨⟨m, pc, a, rfl⟩, -⟩ := step_next_frame h
  rfl

/-- Settles O4: a completed step leaves the frame that the steps of a pass keep. -/
theorem stepWritesNoProgramAndNoHighMemory : Obligations.StepWritesNoProgramAndNoHighMemory := by
  intro s t h
  obtain ⟨-, hprog, -, -, -, -, -, hmem⟩ := (StepsFrame.refl s).step h
  exact ⟨hprog, hmem⟩

/-- Settles O20. -/
theorem ldaLoadsItsImmediate : Obligations.LdaLoadsItsImmediate := exec_lda_result

/-- Settles O21: the operand byte is the decoder's, and with no byte after the opcode the operand check fails. -/
theorem ldaStepFromImage : Obligations.LdaStepFromImage := by
  intro s image w k h hop
  constructor
  · intro imm8 himm
    have hdecode : decode s.cfg (image.drop k) = .ok (.lda imm8, image.drop (k + 2)) := by
      rw [drop_eq_cons_of_getElem? hop, drop_eq_cons_of_getElem? himm]
      simp only [decode_cons, classOf_ldi]
    rw [h.step_of_decode hdecode]
    exact exec_lda_result imm8 { s with pc := w }
  · intro hshort
    exact h.step_eq_fault hop (by rwa [classOf_ldi])

/-- Settles O22: MEM_SIZE is at least 256, so a one-byte address is inside MemoryImage. -/
theorem staStoresTheAccumulator : Obligations.StaStoresTheAccumulator := by
  intro addr8 s hwf hsize
  rw [effectiveAddr_eq]
  exact ⟨rfl, exec_sta_result addr8 s hwf hsize⟩

/-- Settles O24: as O21, with the store's result. -/
theorem staStepFromImage : Obligations.StaStepFromImage := by
  intro s image w k hinv h hop
  have hcls := classOf_sta (Config.opcodesOk_of_wf hinv.config)
  constructor
  · intro addr8 haddr
    have hdecode : decode s.cfg (image.drop k) = .ok (.sta addr8, image.drop (k + 2)) := by
      rw [drop_eq_cons_of_getElem? hop, drop_eq_cons_of_getElem? haddr]
      simp only [decode_cons, hcls]
    rw [h.step_of_decode hdecode]
    exact exec_sta_result addr8 { s with pc := w } hinv.memory (Config.sizes_of_wf hinv.config).2.1
  · intro hshort
    exact h.step_eq_fault hop (by rwa [hcls])

/-- Settles O25. -/
theorem jmpReplacesThePc : Obligations.JmpReplacesThePc := exec_jmp_result

/-- Settles O26: as O21, with two operand bytes put together low byte first. -/
theorem jmpStepFromImage : Obligations.JmpStepFromImage := by
  intro s image w k hops h hop
  have hcls := classOf_jmp hops
  constructor
  · intro lo hi hlo hhi
    have hdecode : decode s.cfg (image.drop k) = .ok (.jmp (jumpTarget lo hi), image.drop (k + 3)) := by
      rw [drop_eq_cons_of_getElem? hop, drop_eq_cons_of_getElem? hlo, drop_eq_cons_of_getElem? hhi]
      simp only [decode_cons, hcls]
    obtain ⟨t, ht, hpc, hframe⟩ := exec_jmp_result (jumpTarget lo hi) { s with pc := w }
    exact ⟨t, by rw [h.step_of_decode hdecode, ht], by rw [hpc, jumpTarget_toNat], hframe⟩
  · intro hshort
    exact h.step_eq_fault hop (by rwa [hcls])

/-- Settles O27: the byte is not looked at. -/
theorem nopOnlyAdvances : Obligations.NopOnlyAdvances :=
  fun op s => ⟨exec_nop_result op s, fun _ => rfl⟩

/-- Settles O28: a byte of the NOP class decodes with no byte after it. -/
theorem unknownOpcodeStepNeverStops : Obligations.UnknownOpcodeStepNeverStops := by
  intro s image w k op h hop hldi hsta hjmp
  have hdecode : decode s.cfg (image.drop k) = .ok (.nop op, image.drop (k + 1)) := by
    rw [drop_eq_cons_of_getElem? hop]
    simp only [decode_cons, (classOf_eq_nop_iff op).2 ⟨hldi, hsta, hjmp⟩]
  rw [h.step_of_decode hdecode]
  exact exec_nop_result op { s with pc := w }

end

section
/-! Proofs about every step: the invariant, and what a step neither reads nor writes. -/

namespace Sys2Proof.Machine

/-! ### The invariant -/

section
variable {s : State}

/-- The interpreter's own fields: of MemoryImage the invariant asks the canonical form, of pc, A and the counter nothing. -/
theorem State.Inv.withContext (h : s.Inv) {m : Memory} (hm : Memory.wf s.cfg m = true) (pc : Addr) (a : Byte) (cycles : Nat) :
    ({ s with mem := m, pc := pc, a := a, cycles := cycles } : State).Inv :=
  { h with memory := hm }

theorem State.Inv.terminate (h : s.Inv) (f : Fault) : (terminate s f).Inv := { h with }

theorem State.Inv.withLastTick (h : s.Inv) (lastTick : Option Millis) : ({ s with lastTick := lastTick } : State).Inv :=
  { h with }

theorem State.Inv.wrapPc (h : s.Inv) : (wrapPc s).Inv := by
  unfold Machine.wrapPc
  split
  · exact h
  · exact { h with }

theorem State.Inv.memSize_ge (h : s.Inv) : 256 ≤ s.cfg.memSize := (Config.sizes_of_wf h.config).2.1

theorem State.Inv.effectiveAddr_lt (h : s.Inv) (addr8 : Byte) : effectiveAddr addr8 < s.cfg.memSize := by
  rw [effectiveAddr_eq]
  exact addr8.isLt.trans_le h.memSize_ge

theorem State.Inv.memAfter_wf (h : s.Inv) (i : Instr) : Memory.wf s.cfg (memAfter i s) = true := by
  cases i with
  | sta addr8 => exact Memory.write_wf s.a (h.effectiveAddr_lt addr8) h.memory
  | lda | jmp | nop => exact h.memory

theorem exec_keeps_inv {i : Instr} {t : State} (h : s.Inv) (he : exec i s = .next t) : t.Inv := by
  rw [(exec_next_cases he).1]
  exact h.withContext (h.memAfter_wf i) _ _ _

theorem step_keeps_inv {t : State} (h : s.Inv) (hs : step s = .next t) : t.Inv := by
  obtain ⟨image, i, -, -, -, he⟩ := step_next_cases hs
  exact exec_keeps_inv (h.withContext h.memory _ _ _) he

/-- R76: on a legal state no STA leaves MemoryImage, so a step faults in its fetch. -/
theorem State.Inv.step_fault (h : s.Inv) {f : Fault} (hs : step s = .fault f) :
    ∃ image, s.prog = some image ∧ f = .operandPastImageEnd (windowPc s.cfg image s.pc) := by
  obtain ⟨image, -, hprog, hfetch | ⟨addr8, -, hout, -⟩⟩ := step_fault_cases hs
  · exact ⟨image, hprog, eq_operandPastImageEnd_of_fetch hfetch⟩
  · exact absurd (h.effectiveAddr_lt addr8) (Nat.not_lt.2 hout)

end

/-! ### What a step does not look at -/

/-- `s` with other values in the four fields that belong to the host side (R120). -/
def State.withHostSide (s : State) (input : List Bool) (frame : Frame) (lastTick : Option Millis) (slot : Option Snapshot) :
    State :=
  { s with input := input, frame := frame, lastTick := lastTick, slot := slot }

section
variable (s : State) (input : List Bool) (frame : Frame) (lastTick : Option Millis) (slot : Option Snapshot)

theorem exec_withHostSide (i : Instr) : exec i (s.withHostSide input frame lastTick slot) =
    match exec i s with
    | .next t => .next (t.withHostSide input frame lastTick slot)
    | .fault f => .fault f
    | .refused r => .refused r := by
  cases i with
  | lda | jmp | nop => rfl
  | sta addr8 =>
    by_cases haddr : effectiveAddr addr8 < s.cfg.memSize
    · simp only [exec, execSta_eq_next haddr, execSta_eq_next (s := s.withHostSide input frame lastTick slot) haddr]
      rfl
    · have hout := Nat.not_lt.1 haddr
      simp only [exec, execSta_eq_fault hout, execSta_eq_fault (s := s.withHostSide input frame lastTick slot) hout]

theorem step_withHostSide : step (s.withHostSide input frame lastTick slot) =
    match step s with
    | .next t => .next (t.withHostSide input frame lastTick slot)
    | .fault f => .fault f
    | .refused r => .refused r := by
  by_cases hfatal : s.fatal = none
  · rcases Option.eq_none_or_eq_some s.prog with hprog | ⟨image, hprog⟩
    · rw [step_of_no_prog hfatal hprog, step_of_no_prog (s := s.withHostSide input frame lastTick slot) hfatal hprog]
    · rcases hfetch : fetch s.cfg image (windowPc s.cfg image s.pc) with f | i
      · rw [step_of_fetch_error hfatal hprog hfetch,
          step_of_fetch_error (s := s.withHostSide input frame lastTick slot) hfatal hprog hfetch]
      · rw [step_of_fetch_ok hfatal hprog hfetch,
          step_of_fetch_ok (s := s.withHostSide input frame lastTick slot) hfatal hprog hfetch]
        exact exec_withHostSide { s with pc := windowPc s.cfg image s.pc } input frame lastTick slot i
  · rw [step_of_terminated hfatal, step_of_terminated (s := s.withHostSide input frame lastTick slot) hfatal]

end

/-- The address an instruction stores to, if it stores (R62). -/
def storeAddr : Instr → Option Nat
  | .sta addr8 => some (effectiveAddr addr8)
  | _ => none

/-- MemoryImage `m` after a step of `s` that stores A at `stored`, or that stores nothing. -/
def memStored (s : State) (stored : Option Nat) (m : Memory) : Memory :=
  match stored with
  | none => m
  | some addr => Memory.write s.cfg m addr s.a

theorem storeAddr_lt {i : Instr} {addr : Nat} (h : storeAddr i = some addr) : addr < 256 := by
  cases i with
  | sta addr8 =>
    cases h
    rw [effectiveAddr_eq]
    exact addr8.isLt
  | lda | jmp | nop => cases h

/-- Whatever MemoryImage holds, an instruction ends alike and stores alike. -/
theorem exec_withMem (i : Instr) (s : State) :
    (∃ t : State, ∀ m, exec i { s with mem := m } = .next { t with mem := memStored s (storeAddr i) m }) ∨
      ∃ f, ∀ m, exec i { s with mem := m } = .fault f := by
  cases i with
  | lda imm8 => exact .inl ⟨{ s with a := imm8, pc := s.pc + 2, cycles := s.cycles + 1 }, fun _ => rfl⟩
  | sta addr8 =>
    by_cases haddr : effectiveAddr addr8 < s.cfg.memSize
    · exact .inl ⟨{ s with pc := s.pc + 2, cycles := s.cycles + 1 }, fun m => execSta_eq_next (s := { s with mem := m }) haddr⟩
    · exact .inr ⟨_, fun m => execSta_eq_fault (s := { s with mem := m }) (Nat.not_lt.1 haddr)⟩
  | jmp abs16 => exact .inl ⟨{ s with pc := abs16, cycles := s.cycles + 1 }, fun _ => rfl⟩
  | nop op => exact .inl ⟨{ s with pc := s.pc + 1, cycles := s.cycles + 1 }, fun _ => rfl⟩

theorem step_withMem (s : State) :
    (∃ (t : State) (stored : Option Nat), (∀ addr, stored = some addr → addr < 256) ∧
      ∀ m, step { s with mem := m } = .next { t with mem := memStored s stored m }) ∨
    (∃ f, ∀ m, step { s with mem := m } = .fault f) ∨ ∃ r, ∀ m, step { s with mem := m } = .refused r := by
  by_cases hfatal : s.fatal = none
  · rcases Option.eq_none_or_eq_some s.prog with hprog | ⟨image, hprog⟩
    · exact .inr (.inr ⟨_, fun m => step_of_no_prog (s := { s with mem := m }) hfatal hprog⟩)
    · rcases hfetch : fetch s.cfg image (windowPc s.cfg image s.pc) with f | i
      · exact .inr (.inl ⟨_, fun m => step_of_fetch_error (s := { s with mem := m }) hfatal hprog hfetch⟩)
      · have hstep (m : Memory) := step_of_fetch_ok (s := { s with mem := m }) hfatal hprog hfetch
        rcases exec_withMem i { s with pc := windowPc s.cfg image s.pc } with ⟨t, ht⟩ | ⟨f, hf⟩
        · exact .inl ⟨t, storeAddr i, fun _ => storeAddr_lt, fun m => (hstep m).trans (ht m)⟩
        · exact .inr (.inl ⟨f, fun m => (hstep m).trans (hf m)⟩)
  · exact .inr (.inr ⟨_, fun m => step_of_terminated (s := { s with mem := m }) hfatal⟩)

end Sys2Proof.Machine
end

section
open Sys2Proof Sys2Proof.Machine

/-- Settles O56: by the instruction the step ran, on the state with the pc wrapped. -/
theorem stepKeepsInvariant : Obligations.StepKeepsInvariant := by
  intro s t h hs
  exact step_keeps_inv h hs

/-- Settles O5: by the fetch, which does not look at MemoryImage, and the instruction, whose one store is STA's. -/
theorem stepNeverReadsMemoryImage : Obligations.StepNeverReadsMemoryImage := step_withMem

/-- Settles O17: a runnable legal state's step is refused by nothing, and faults in its fetch only. -/
theorem runnableStepCompletesOrLacksOperand : Obligations.RunnableStepCompletesOrLacksOperand := by
  intro s image w k hinv h
  obtain ⟨hfatal, hprog, -⟩ := id h
  rcases hs : step s with t | f | r
  · exact .inl ⟨t, rfl⟩
  · obtain ⟨image', hprog', rfl⟩ := hinv.step_fault hs
    cases hprog.symm.trans hprog'
    exact .inr (by rw [h.windowPc_eq])
  · rcases step_refused_cases hs with ⟨hterminated, -⟩ | ⟨-, hnone, -⟩
    · exact absurd hfatal hterminated
    · rw [hprog] at hnone; cases hnone

/-- Settles O19: by the fetch, which looks at none of the four fields, and the instruction, class by class. -/
theorem stepIgnoresHostSideState : Obligations.StepIgnoresHostSideState := by
  intro s input frame lastTick slot
  exact step_withHostSide s input frame lastTick slot

/-- Settles O23: MEM_SIZE is at least 256, so every STA completes, and a step faults in its fetch only. -/
theorem legalStatesStopNoInstruction : Obligations.LegalStatesStopNoInstruction := by
  intro s hinv
  refine ⟨fun i => ?_, hinv.effectiveAddr_lt, fun addr hs => ?_⟩
  · obtain ⟨t, ht⟩ := exec_completes (i := i) hinv.memSize_ge
    exact ⟨t, ht, by rw [(exec_next_cases ht).1], exec_keeps_inv hinv ht⟩
  · obtain ⟨image, -, hf⟩ := hinv.step_fault hs
    cases hf

end

section
/-! Proofs of 44_tick.md and 45_scheduler.md: the steps of a pass, the position update, the pass and the governor. -/

namespace Sys2Proof.Machine

/-! ### The steps of a pass are the machine's own -/

/-- Among the states that fewer than `k + 1` steps reach is the first one; the others are reached from its next state. -/
theorem exists_run_lt_succ_iff (P : State → Prop) (k : Nat) (s : State) :
    (∃ (j : Nat) (u : State), j < k + 1 ∧ Host.Core.run Sys2Proof.core j s = .next u ∧ P u) ↔
      P s ∨ ∃ t, step s = .next t ∧
        ∃ (j : Nat) (u : State), j < k ∧ Host.Core.run Sys2Proof.core j t = .next u ∧ P u := by
  constructor
  · rintro ⟨_ | j, u, hj, hrun, hu⟩
    · cases hrun
      exact .inl hu
    · rw [core_run_succ] at hrun
      split at hrun
      next t ht => exact .inr ⟨t, ht, j, u, by omega, hrun, hu⟩
      next => cases hrun
      next => cases hrun
  · rintro (hs | ⟨t, ht, j, u, hj, hrun, hu⟩)
    · exact ⟨0, s, by omega, rfl, hs⟩
    · exact ⟨j + 1, u, by omega, by rw [core_run_succ, ht]; exact hrun, hu⟩

theorem runBudget_eq_completed_iff (k : Nat) (s u : State) :
    runBudget k s = .completed u ↔ Host.Core.run Sys2Proof.core k s = .next u := by
  induction k generalizing s with
  | zero =>
    rw [runBudget_zero, core_run_zero, PassOutcome.completed.injEq]
    exact ⟨congrArg Host.Outcome.next, Host.Outcome.next.inj⟩
  | succ k ih =>
    rw [runBudget_succ, core_run_succ]
    rcases step s with t | f | r
    · exact ih t
    · simp
    · simp

theorem runBudget_eq_faulted_iff (k : Nat) (s t : State) (f : Fault) :
    runBudget k s = .faulted t f ↔
      ∃ (j : Nat) (u : State), j < k ∧ Host.Core.run Sys2Proof.core j s = .next u ∧ step u = .fault f ∧
        t = terminate (wrapPc u) f := by
  induction k generalizing s with
  | zero => simp
  | succ k ih =>
    rw [exists_run_lt_succ_iff (fun u => step u = .fault f ∧ t = terminate (wrapPc u) f), runBudget_succ]
    rcases step s with s' | g | r
    · simpa using ih s'
    · simp only [PassOutcome.faulted.injEq, Host.Outcome.fault.injEq, reduceCtorEq, false_and, exists_false, or_false]
      constructor
      · rintro ⟨rfl, rfl⟩; exact ⟨rfl, rfl⟩
      · rintro ⟨rfl, rfl⟩; exact ⟨rfl, rfl⟩
    · simp

theorem runBudget_eq_refused_iff (k : Nat) (s : State) (r : Refusal) :
    runBudget k s = .refused r ↔
      ∃ (j : Nat) (u : State), j < k ∧ Host.Core.run Sys2Proof.core j s = .next u ∧ step u = .refused r := by
  induction k generalizing s with
  | zero => simp
  | succ k ih =>
    rw [exists_run_lt_succ_iff (fun u => step u = .refused r), runBudget_succ]
    rcases step s with s' | g | r'
    · simpa using ih s'
    · simp
    · simp

theorem runBudget_keeps_inv {k : Nat} {s t : State} (h : s.Inv) (hrun : runBudget k s = .completed t) : t.Inv := by
  rcases runBudget_induct (fun _ u => u.Inv) (fun _ _ _ => step_keeps_inv) k 0 s h with
    ⟨u, hu, hinv⟩ | ⟨j, u, f, -, -, -, hu⟩ | ⟨j, u, r, -, -, -, hu⟩ <;> rw [hu] at hrun <;> cases hrun
  exact hinv

/-- R76, R129: the steps of a legal state's pass end with the operand fault, if not with their last. -/
theorem runBudget_faulted_of_inv {k : Nat} {s t : State} {f : Fault} (h : s.Inv) (hrun : runBudget k s = .faulted t f) :
    ∃ (j : Nat) (u : State) (pc : Addr), j < k ∧ runBudget j s = .completed u ∧ u.Inv ∧
      f = .operandPastImageEnd pc ∧ step u = .fault f ∧ t = terminate (wrapPc u) f := by
  obtain ⟨j, u, hj, hu, hfault, ht⟩ := (runBudget_eq_faulted_iff k s t f).1 hrun
  rw [← runBudget_eq_completed_iff] at hu
  have hinv := runBudget_keeps_inv h hu
  obtain ⟨image, -, hf⟩ := hinv.step_fault hfault
  exact ⟨j, u, _, hj, hu, hinv, hf, hfault, ht⟩

/-- R276: no step writes what makes a core runnable, so none of a runnable core's pass is refused. -/
theorem runBudget_ne_refused {k : Nat} {s : State} (hfatal : s.fatal = none) (hprog : s.prog ≠ none) (r : Refusal) :
    runBudget k s ≠ .refused r := by
  intro hrun
  obtain ⟨j, u, -, hu, hrefused⟩ := (runBudget_eq_refused_iff k s r).1 hrun
  obtain ⟨⟨-, hprog', -, -, -, -, hfatal', -⟩, -⟩ := (runBudget_frame j s).1 u ((runBudget_eq_completed_iff j s u).2 hu)
  rcases step_refused_cases hrefused with ⟨hterminated, -⟩ | ⟨-, hnone, -⟩
  · exact hterminated (hfatal'.trans hfatal)
  · exact hprog (hprog'.symm.trans hnone)

/-- The first faulting step ends the steps of a pass, however many were left (R176). -/
theorem runBudget_eq_faulted {j k : Nat} {s u : State} {f : Fault} (hj : j < k) (hrun : runBudget j s = .completed u)
    (hfault : step u = .fault f) : runBudget k s = .faulted (terminate (wrapPc u) f) f :=
  (runBudget_eq_faulted_iff k s _ f).2 ⟨j, u, hj, (runBudget_eq_completed_iff j s u).1 hrun, hfault, rfl⟩

/-! ### The position update -/

theorem pressed_iff (s : State) (id : Nat) : pressed s id = true ↔ s.input[id]? = some true := by
  rw [pressed, List.getD_eq_getElem?_getD]
  cases s.input[id]? <;> simp

/-- R172 in one line for one coordinate. -/
theorem moveAlong_eq (v stepSize : Int) (down up : Bool) :
    moveAlong v stepSize down up = v - (if down then stepSize else 0) + (if up then stepSize else 0) := by
  cases down <;> simp [moveAlong]

theorem movedX_eq (s : State) (x : Byte) : movedX s x =
    max 0 (min ((s.cfg.width : Int) - s.cfg.sprite)
      (x.toNat - (if s.input[s.cfg.btnLeft]? = some true then (s.cfg.stepSize : Int) else 0)
        + (if s.input[s.cfg.btnRight]? = some true then (s.cfg.stepSize : Int) else 0))) := by
  simp only [movedX, clamp, moveAlong_eq, pressed_iff]

theorem movedY_eq (s : State) (y : Byte) : movedY s y =
    max 0 (min ((s.cfg.height : Int) - s.cfg.sprite)
      (y.toNat - (if s.input[s.cfg.btnUp]? = some true then (s.cfg.stepSize : Int) else 0)
        + (if s.input[s.cfg.btnDown]? = some true then (s.cfg.stepSize : Int) else 0))) := by
  simp only [movedY, clamp, moveAlong_eq, pressed_iff]

/-- Clamped to a range R10 (d) allows, a coordinate is the byte it is written as. -/
theorem toNat_ofInt_clamp {size sprite : Nat} (v : Int) (hfits : sprite ≤ size) (hbyte : size - sprite ≤ 255) :
    ((BitVec.ofInt 8 (clamp v 0 ((size : Int) - sprite))).toNat : Int) = clamp v 0 ((size : Int) - sprite) := by
  obtain ⟨hlo, hhi⟩ := clamp_bounds (v := v) (show (0 : Int) ≤ (size : Int) - sprite by omega)
  rw [toNat_ofInt_of_fits hlo (by omega), Int.toNat_of_nonneg hlo]

theorem positionUpdate_eq_error_cellX {s : State} (hx : s.cfg.memSize ≤ s.cfg.cellX) :
    positionUpdate s = .error (.addressOutOfRange s.cfg.cellX) := by
  simp only [positionUpdate, memRead_eq_error hx]

theorem positionUpdate_eq_error_cellY {s : State} (hx : s.cfg.cellX < s.cfg.memSize) (hy : s.cfg.memSize ≤ s.cfg.cellY) :
    positionUpdate s = .error (.addressOutOfRange s.cfg.cellY) := by
  simp only [positionUpdate, memRead_eq_ok hx, memRead_eq_error hy]

/-- `t` is `s` after the position update: the two moved positions in the cells, every other byte and everything else as before. -/
structure MovedTo (s t : State) : Prop where
  x : ((Memory.read t.cfg t.mem s.cfg.cellX).toNat : Int) = movedX s (Memory.read s.cfg s.mem s.cfg.cellX)
  y : ((Memory.read t.cfg t.mem s.cfg.cellY).toNat : Int) = movedY s (Memory.read s.cfg s.mem s.cfg.cellY)
  other : ∀ addr, addr ≠ s.cfg.cellX → addr ≠ s.cfg.cellY → Memory.read t.cfg t.mem addr = Memory.read s.cfg s.mem addr
  pc : t.pc = s.pc
  a : t.a = s.a
  cycles : t.cycles = s.cycles
  host : s.SameHostState t
  inv : t.Inv

theorem positionUpdate_completes {s : State} (h : s.Inv) : ∃ t, positionUpdate s = .ok t ∧ MovedTo s t := by
  obtain ⟨hx, hy, -, hxy, -, -⟩ := Config.cells_of_wf h.config
  obtain ⟨hw, hh, hw255, hh255⟩ := Config.sprite_of_wf h.config
  have hwf := Memory.write_wf (BitVec.ofInt 8 (movedX s (Memory.read s.cfg s.mem s.cfg.cellX))) hx h.memory
  refine ⟨_, positionUpdate_eq_ok hx hy, ?_, ?_, fun addr hax hay => ?_, rfl, rfl, rfl, .refl s,
    h.withContext (Memory.write_wf _ hy hwf) _ _ _⟩
  · rw [Memory.read_write_other _ _ hxy, Memory.read_write_same _ h.memory]
    exact toNat_ofInt_clamp _ hw hw255
  · rw [Memory.read_write_same _ hwf]
    exact toNat_ofInt_clamp _ hh hh255
  · rw [Memory.read_write_other _ _ hay, Memory.read_write_other _ _ hax]

theorem movedTo_of_positionUpdate {s t : State} (h : s.Inv) (hs : positionUpdate s = .ok t) : MovedTo s t := by
  obtain ⟨t', ht', hmoved⟩ := positionUpdate_completes h
  cases hs.symm.trans ht'
  exact hmoved

theorem movedX_le {s : State} (hw : s.cfg.sprite ≤ s.cfg.width) (x : Byte) :
    movedX s x ≤ (s.cfg.width : Int) - s.cfg.sprite :=
  (clamp_bounds (by omega)).2

theorem movedY_le {s : State} (hh : s.cfg.sprite ≤ s.cfg.height) (y : Byte) :
    movedY s y ≤ (s.cfg.height : Int) - s.cfg.sprite :=
  (clamp_bounds (by omega)).2

/-- R173. -/
theorem MovedTo.positionInRange {s t : State} (hs : s.Inv) (h : MovedTo s t) : t.PositionInRange := by
  obtain ⟨hw, hh, -, -⟩ := Config.sprite_of_wf hs.config
  have hx := movedX_le hw (Memory.read s.cfg s.mem s.cfg.cellX)
  have hy := movedY_le hh (Memory.read s.cfg s.mem s.cfg.cellY)
  have hcfg : t.cfg = s.cfg := h.host.1
  rw [← h.x, hcfg] at hx
  rw [← h.y, hcfg] at hy
  rw [State.PositionInRange, hcfg]
  constructor <;> omega

/-! ### The pass -/

theorem render_sized (c : Config) (m : Memory) : Frame.sized c (render c m) = true := by
  simp [Frame.sized, render]

theorem State.Inv.drawFrame {s : State} (h : s.Inv) : (drawFrame s).Inv := { h with frame := render_sized s.cfg s.mem }

theorem tickPass_completed_iff {s t : State} : tickPass s = .completed t ↔
    ∃ u v, runBudget s.cfg.budget s = .completed u ∧ positionUpdate u = .ok v ∧ t = drawFrame v := by
  constructor
  · intro h
    rcases tickPass_cases s with ⟨u, v, hu, hv, ht⟩ | ⟨u, f, -, ht⟩ | ⟨u, f, -, -, ht⟩ | ⟨r, -, ht⟩ <;>
      rw [ht] at h <;> cases h
    exact ⟨u, v, hu, hv, rfl⟩
  · rintro ⟨u, v, hu, hv, rfl⟩
    simp only [tickPass, hu, hv]

theorem tickPass_eq_faulted {s u : State} {f : Fault} (h : runBudget s.cfg.budget s = .faulted u f) :
    tickPass s = .faulted u f := by
  simp only [tickPass, h]

/-- R76: on a legal state only a step of the pass can fault. -/
theorem runBudget_of_tickPass_faulted {s t : State} {f : Fault} (hs : s.Inv) (h : tickPass s = .faulted t f) :
    runBudget s.cfg.budget s = .faulted t f := by
  rcases tickPass_cases s with ⟨u, v, -, -, ht⟩ | ⟨u, g, hu, ht⟩ | ⟨u, g, hu, hg, -⟩ | ⟨r, -, ht⟩
  · rw [ht] at h; cases h
  · rw [ht] at h; cases h; exact hu
  · obtain ⟨v, hv, -⟩ := positionUpdate_completes (runBudget_keeps_inv hs hu)
    cases hg.symm.trans hv
  · rw [ht] at h; cases h

theorem tickPass_completed_keeps_inv {s t : State} (hs : s.Inv) (h : tickPass s = .completed t) : t.Inv := by
  obtain ⟨u, v, hu, hv, rfl⟩ := tickPass_completed_iff.1 h
  exact (movedTo_of_positionUpdate (runBudget_keeps_inv hs hu) hv).inv.drawFrame

theorem tickPass_faulted_of_inv {s t : State} {f : Fault} (hs : s.Inv) (h : tickPass s = .faulted t f) :
    t.Inv ∧ t.fatal = some f ∧ ∃ pc, f = .operandPastImageEnd pc := by
  obtain ⟨j, u, pc, -, -, hinv, hf, -, rfl⟩ := runBudget_faulted_of_inv hs (runBudget_of_tickPass_faulted hs h)
  exact ⟨hinv.wrapPc.terminate f, rfl, pc, hf⟩

/-! ### The pass and the two fields of the scheduler and the snapshot slot -/

/-- `s` with other values in `lastTick` and `slot` (R177). -/
def State.withSchedule (s : State) (lastTick : Option Millis) (slot : Option Snapshot) : State :=
  { s with lastTick := lastTick, slot := slot }

/-- The end of a pass with those values in the state it ends in. -/
def PassOutcome.withSchedule (o : PassOutcome) (lastTick : Option Millis) (slot : Option Snapshot) : PassOutcome :=
  match o with
  | .completed t => .completed (t.withSchedule lastTick slot)
  | .faulted t f => .faulted (t.withSchedule lastTick slot) f
  | .refused r => .refused r

section
variable (s : State) (lastTick : Option Millis) (slot : Option Snapshot)

theorem step_withSchedule : step (s.withSchedule lastTick slot) =
    match step s with
    | .next t => .next (t.withSchedule lastTick slot)
    | .fault f => .fault f
    | .refused r => .refused r := by
  have h := step_withHostSide s s.input s.frame lastTick slot
  rcases hs : step s with t | f | r <;> rw [hs] at h
  · obtain ⟨⟨m, pc, a, rfl⟩, -⟩ := step_next_frame hs
    exact h
  · exact h
  · exact h

theorem terminate_wrapPc_withSchedule (f : Fault) :
    terminate (wrapPc (s.withSchedule lastTick slot)) f = (terminate (wrapPc s) f).withSchedule lastTick slot := by
  rcases Option.eq_none_or_eq_some s.prog with hprog | ⟨image, hprog⟩
  · rw [wrapPc_of_none hprog, wrapPc_of_none (s := s.withSchedule lastTick slot) hprog]; rfl
  · rw [wrapPc_of_prog hprog, wrapPc_of_prog (s := s.withSchedule lastTick slot) hprog]; rfl

theorem runBudget_withSchedule (k : Nat) :
    runBudget k (s.withSchedule lastTick slot) = (runBudget k s).withSchedule lastTick slot := by
  induction k generalizing s with
  | zero => rfl
  | succ k ih =>
    rw [runBudget_succ, runBudget_succ, step_withSchedule]
    rcases step s with t | f | r
    · exact ih t
    · exact congrArg (PassOutcome.faulted · f) (terminate_wrapPc_withSchedule s lastTick slot f)
    · rfl

theorem positionUpdate_withSchedule : positionUpdate (s.withSchedule lastTick slot) =
    (positionUpdate s).map (·.withSchedule lastTick slot) := by
  by_cases hx : s.cfg.cellX < s.cfg.memSize
  · by_cases hy : s.cfg.cellY < s.cfg.memSize
    · rw [positionUpdate_eq_ok hx hy, positionUpdate_eq_ok (s := s.withSchedule lastTick slot) hx hy]; rfl
    · have hout := Nat.not_lt.1 hy
      rw [positionUpdate_eq_error_cellY hx hout, positionUpdate_eq_error_cellY (s := s.withSchedule lastTick slot) hx hout]
      rfl
  · have hout := Nat.not_lt.1 hx
    rw [positionUpdate_eq_error_cellX hout, positionUpdate_eq_error_cellX (s := s.withSchedule lastTick slot) hout]; rfl

theorem tickPass_withSchedule :
    tickPass (s.withSchedule lastTick slot) = (tickPass s).withSchedule lastTick slot := by
  have hrun := runBudget_withSchedule s lastTick slot s.cfg.budget
  unfold tickPass
  rw [show (s.withSchedule lastTick slot).cfg = s.cfg from rfl, hrun]
  rcases runBudget s.cfg.budget s with u | ⟨u, f⟩ | r
  · simp only [PassOutcome.withSchedule, positionUpdate_withSchedule]
    cases positionUpdate u <;> rfl
  · rfl
  · rfl

end

/-! ### The tick -/

section
variable {s t : State} {now : Millis}

theorem executeTick_done_iff {reply : Reply} : executeTick now s = .done t reply ↔
    reply = .ok ∧ tickPass { s with lastTick := some now } = .completed t := by
  unfold executeTick
  rcases tickPass { s with lastTick := some now } with u | ⟨u, f⟩ | r <;> simp [and_comm, eq_comm]

theorem executeTick_fault_iff {f : Fault} : executeTick now s = .fault t f ↔
    tickPass { s with lastTick := some now } = .faulted t f := by
  unfold executeTick
  rcases tickPass { s with lastTick := some now } with u | ⟨u, f⟩ | r <;> simp

theorem command_tick_done {reply : Reply} (h : command (.tick now) s = .done t reply) :
    t = s ∨ tickPass { s with lastTick := some now } = .completed t := by
  rcases command_tick_cases now s with ⟨r, hr⟩ | hs | ⟨-, -, hs⟩
  · rw [hr] at h; cases h
  · rw [hs] at h; cases h; exact .inl rfl
  · rw [hs] at h; exact .inr (executeTick_done_iff.1 h).2

theorem command_tick_fault {f : Fault} (h : command (.tick now) s = .fault t f) :
    tickPass { s with lastTick := some now } = .faulted t f := by
  rcases command_tick_cases now s with ⟨r, hr⟩ | hs | ⟨-, -, hs⟩
  · rw [hr] at h; cases h
  · rw [hs] at h; cases h
  · rw [hs] at h; exact executeTick_fault_iff.1 h

theorem command_first_tick (hfatal : s.fatal = none) (hprog : s.prog ≠ none) (hlast : s.lastTick = none) :
    command (.tick now) s = executeTick now s := by
  rw [command_tick_of_runnable hfatal hprog, hlast]

theorem command_backwards_tick {last : Millis} (hfatal : s.fatal = none) (hprog : s.prog ≠ none)
    (hlast : s.lastTick = some last) (hlt : now.toNat < last.toNat) : command (.tick now) s = .refused .timeBackwards := by
  simp only [command_tick_of_runnable hfatal hprog, hlast, if_pos hlt]

/-- R191: the governor decides a later tick. -/
theorem command_later_tick {last : Millis} (hfatal : s.fatal = none) (hprog : s.prog ≠ none)
    (hlast : s.lastTick = some last) (hle : last.toNat ≤ now.toNat) :
    command (.tick now) s =
      if 1000 ≤ (now.toNat - last.toNat) * s.cfg.tickHz then executeTick now s else .done s .ok := by
  simp only [command_tick_of_runnable hfatal hprog, hlast, if_neg (Nat.not_lt.2 hle), tickDue, decide_eq_true_eq]

theorem State.TickExecutes.command_eq (h : s.TickExecutes now) : command (.tick now) s = executeTick now s := by
  obtain ⟨hfatal, hprog, hlast | ⟨last, hlast, hle, hdue⟩⟩ := h
  · exact command_first_tick hfatal hprog hlast
  · rw [command_later_tick hfatal hprog hlast hle, if_pos hdue]

theorem State.TickExecutes.tickPass_completed {reply : Reply} (h : s.TickExecutes now)
    (hdone : command (.tick now) s = .done t reply) : tickPass { s with lastTick := some now } = .completed t := by
  rw [h.command_eq] at hdone
  exact (executeTick_done_iff.1 hdone).2

end

/-! ### Images of unknown opcodes -/

theorem step_of_nop_image {s : State} {image : List Byte} (hfatal : s.fatal = none) (hprog : s.prog = some image)
    (hpos : 1 ≤ image.length) (hnop : ∀ op ∈ image, classOf s.cfg op = .nop) :
    ∃ pc, step s = .next { s with pc := pc, cycles := s.cycles + 1 } := by
  have hin := windowPc_inWindow (c := s.cfg) hpos s.pc
  have hcls := hnop _ (List.mem_of_getElem? (progRead_eq hin))
  obtain ⟨-, hhi⟩ := (inWindow_iff _).1 hin
  rcases fetch_cases hin with ⟨hshort, -⟩ | ⟨-, i, hi, hfetch⟩
  · rw [hcls, OpClass.length_nop] at hshort
    omega
  · rw [hcls] at hi
    cases i with
    | nop op => exact ⟨_, step_of_fetch_ok hfatal hprog hfetch⟩
    | lda | sta | jmp => cases hi

theorem runBudget_of_nop_image {s : State} {image : List Byte} (hfatal : s.fatal = none) (hprog : s.prog = some image)
    (hpos : 1 ≤ image.length) (hnop : ∀ op ∈ image, classOf s.cfg op = .nop) (k : Nat) :
    ∃ pc, runBudget k s = .completed { s with pc := pc, cycles := s.cycles + k } := by
  have hstep (pc : Addr) (n : Nat) :=
    step_of_nop_image (s := { s with pc := pc, cycles := s.cycles + n }) hfatal hprog hpos hnop
  have hnext (n : Nat) (t u : State) (ht : ∃ pc, t = { s with pc := pc, cycles := s.cycles + n }) (hu : step t = .next u) :
      ∃ pc, u = { s with pc := pc, cycles := s.cycles + (n + 1) } := by
    obtain ⟨pc, rfl⟩ := ht
    obtain ⟨pc', hpc'⟩ := hstep pc n
    exact ⟨pc', Host.Outcome.next.inj (hu.symm.trans hpc')⟩
  rcases runBudget_induct _ hnext k 0 s ⟨s.pc, rfl⟩ with
    ⟨t, ht, pc, rfl⟩ | ⟨j, u, f, -, ⟨pc, rfl⟩, hu, -⟩ | ⟨j, u, r, -, ⟨pc, rfl⟩, hu, -⟩
  · exact ⟨pc, by rw [ht, Nat.zero_add]⟩
  · obtain ⟨pc', hpc'⟩ := hstep pc (0 + j)
    cases hu.symm.trans hpc'
  · obtain ⟨pc', hpc'⟩ := hstep pc (0 + j)
    cases hu.symm.trans hpc'

end Sys2Proof.Machine
end

section
open Sys2Proof Sys2Proof.Machine

/-- Settles O60: by the budget, along the first step. -/
theorem budgetIsRepeatedStep : Obligations.BudgetIsRepeatedStep := by
  intro k s
  exact ⟨runBudget_eq_completed_iff k s, runBudget_eq_faulted_iff k s, runBudget_eq_refused_iff k s⟩

/-- Settles O59: the budget's steps complete or end in the operand fault (O60, O56), and on a legal state the position update
completes. -/
theorem executedTickCompletesOrFaults : Obligations.ExecutedTickCompletesOrFaults := by
  intro s now hinv htick
  obtain ⟨hfatal, hprog, -⟩ := id htick
  have hinv' := hinv.withLastTick (some now)
  rw [htick.command_eq]
  rcases hrun : runBudget s.cfg.budget { s with lastTick := some now } with u | ⟨t, f⟩ | r
  · obtain ⟨v, hv, hmoved⟩ := positionUpdate_completes (runBudget_keeps_inv hinv' hrun)
    obtain ⟨⟨-, -, -, -, -, -, hfatal', -⟩, -⟩ := (runBudget_frame _ _).1 u hrun
    obtain ⟨-, -, -, -, -, -, hfatal''⟩ := hmoved.host
    exact .inl ⟨u, v, (runBudget_eq_completed_iff _ _ u).1 hrun, hv,
      executeTick_done_iff.2 ⟨rfl, tickPass_completed_iff.2 ⟨u, v, hrun, hv, rfl⟩⟩,
      (hfatal''.trans hfatal').trans hfatal⟩
  · obtain ⟨j, u, pc, hj, hu, -, rfl, hfault, rfl⟩ := runBudget_faulted_of_inv hinv' hrun
    exact .inr ⟨j, u, pc, hj, (runBudget_eq_completed_iff j _ u).1 hu, hfault,
      executeTick_fault_iff.2 (tickPass_eq_faulted hrun)⟩
  · exact absurd hrun (runBudget_ne_refused (s := { s with lastTick := some now }) hfatal hprog r)

/-- Settles O33: the pass ends where its steps do, and no step draws. -/
theorem faultingStepEndsTick : Obligations.FaultingStepEndsTick := by
  intro s u now j f htick hj hrun hfault
  rw [htick.command_eq]
  obtain ⟨⟨-, -, -, -, -, hframe, -, -⟩, -⟩ := (runBudget_frame _ _).1 u hrun
  exact ⟨executeTick_fault_iff.2 (tickPass_eq_faulted (runBudget_eq_faulted hj hrun hfault)), hframe⟩

/-- Settles O34: steps and position update look at neither field, and the pass leaves its frame. -/
theorem tickPassIgnoresSchedulerAndSlot : Obligations.TickPassIgnoresSchedulerAndSlot := by
  intro s lastTick slot
  refine ⟨?_, fun t ht => ?_, fun t f ht => ?_⟩
  · have h := tickPass_withSchedule s lastTick slot
    rcases hpass : tickPass s with t | ⟨t, f⟩ | r <;> rw [hpass] at h <;> exact h
  · obtain ⟨hcfg, hprog, hinput, hlast, hslot, -⟩ := tickPass_completed_frame ht
    exact ⟨hprog, hinput, hlast, hslot, hcfg⟩
  · obtain ⟨hcfg, hprog, hinput, hlast, hslot, hframe, -⟩ := tickPass_faulted_frame ht
    exact ⟨hprog, hinput, hlast, hslot, hcfg, hframe⟩

/-- Settles O29: the two moved positions are written one after the other, to different cells. -/
theorem positionUpdateMovesAndClamps : Obligations.PositionUpdateMovesAndClamps := by
  intro s hinv
  obtain ⟨t, ht, hmoved⟩ := positionUpdate_completes hinv
  rw [← movedX_eq, ← movedY_eq]
  exact ⟨t, ht, hmoved.x, hmoved.y, hmoved.other, hmoved.pc, hmoved.a, hmoved.cycles, hmoved.host⟩

/-- Settles O30: the pass ends with the position update, and the render writes no byte. -/
theorem executedTickClampsPosition : Obligations.ExecutedTickClampsPosition := by
  intro s t now reply hinv htick hdone
  obtain ⟨u, v, hu, hv, rfl⟩ := tickPass_completed_iff.1 (htick.tickPass_completed hdone)
  have hinv' := runBudget_keeps_inv (hinv.withLastTick (some now)) hu
  have hrange : v.PositionInRange := (movedTo_of_positionUpdate hinv' hv).positionInRange hinv'
  exact hrange

/-- Settles O31: what a completed pass writes, from the state with the time recorded. -/
theorem executedTickCountsBudget : Obligations.ExecutedTickCountsBudget := by
  intro s t now reply htick hdone
  obtain ⟨-, -, -, hlast, -, -, hcycles, -⟩ := tickPass_completed_frame (htick.tickPass_completed hdone)
  exact ⟨hcycles, hlast⟩

/-- Settles O32: the render is the last part of the pass. -/
theorem executedTickDrawsFinalMemory : Obligations.ExecutedTickDrawsFinalMemory := by
  intro s t now reply htick hdone
  obtain ⟨u, v, -, -, rfl⟩ := tickPass_completed_iff.1 (htick.tickPass_completed hdone)
  rfl

/-- Settles O35: every step of such an image is a NOP's, so the position update starts from the position the tick found. -/
theorem nopImageTickMovesPosition : Obligations.NopImageTickMovesPosition := by
  intro s image now hinv htick hprog hnop
  have hcls (op : Byte) (hop : op ∈ image) : classOf s.cfg op = .nop := (classOf_eq_nop_iff op).2 (hnop op hop)
  obtain ⟨pc, hrun⟩ := runBudget_of_nop_image (s := { s with lastTick := some now }) htick.1 hprog
    (hinv.image image hprog).1 hcls s.cfg.budget
  obtain ⟨v, hv, hmoved⟩ := positionUpdate_completes (runBudget_keeps_inv (hinv.withLastTick (some now)) hrun)
  refine ⟨drawFrame v, ?_, hmoved.x, hmoved.y, hmoved.other, hmoved.a, hmoved.cycles⟩
  rw [htick.command_eq]
  exact executeTick_done_iff.2 ⟨rfl, tickPass_completed_iff.2 ⟨_, v, hrun, hv, rfl⟩⟩

/-- Settles O36: 16 · 60 < 1000 ≤ 17 · 60. -/
theorem governorThresholdIs17AtSixtyHertz : Obligations.GovernorThresholdIs17AtSixtyHertz := by
  intro s last now hfatal hprog hhz hlast hle
  have htick := command_later_tick hfatal hprog hlast hle
  rw [hhz] at htick
  constructor
  · intro hearly
    rw [htick, if_neg (by omega)]
  · intro hdue
    exact ⟨by rw [htick, if_pos (by omega)], hfatal, hprog, .inr ⟨last, hlast, hle, by rw [hhz]; omega⟩⟩

/-- Settles O37: one lemma for each end of the chain. -/
theorem tickChecksInOrder : Obligations.TickChecksInOrder := by
  intro s now
  refine ⟨fun hfatal => command_of_terminated hfatal _, fun hfatal hprog => ?_,
    fun hfatal hprog hlast => command_first_tick hfatal hprog hlast, fun last hfatal hprog hlast => ⟨fun hlt => ?_,
    fun hle hearly => ?_, fun hle hdue => ?_⟩⟩
  · simp [command, cmdTick, terminated_of_fatal hfatal, hprog]
  · exact command_backwards_tick hfatal hprog hlast hlt
  · rw [command_later_tick hfatal hprog hlast hle, if_neg (Nat.not_le.2 hearly)]
  · rw [command_later_tick hfatal hprog hlast hle, if_pos hdue]

/-- Settles O38: an executed tick is one pass, and a completed pass counts BUDGET. -/
theorem atMostOnePassPerTick : Obligations.AtMostOnePassPerTick := by
  intro s now
  refine ⟨fun t reply hdone => ?_, fun t f => command_tick_fault⟩
  rcases command_tick_done hdone with rfl | hpass
  · exact .inl rfl
  · obtain ⟨-, -, -, hlast, -, -, hcycles, -⟩ := tickPass_completed_frame hpass
    exact .inr ⟨hpass, hcycles, hlast⟩

end

section
/-! Proofs of 47_frame_renderer.md: the pixels of a render. -/

namespace Sys2Proof.Machine

theorem pixel_render {c : Config} (m : Memory) {py px : Nat} (hy : py < c.height) (hx : px < c.width) :
    Frame.pixel (render c m) py px =
      some (blockPixel c (Memory.read c m c.cellX).toNat (Memory.read c m c.cellY).toNat py px) := by
  simp [Frame.pixel, render, hy, hx]

/-- An interval inside a range has as many members of the range as its length says. -/
theorem count_interval {lo len n : Nat} (h : lo + len ≤ n) :
    Nat.count (fun i => lo ≤ i ∧ i < lo + len) n = len := by
  have hIco : (Finset.range n).filter (fun i => lo ≤ i ∧ i < lo + len) = Finset.Ico lo (lo + len) := by
    ext i
    simp only [Finset.mem_filter, Finset.mem_range, Finset.mem_Ico]
    omega
  rw [Nat.count_eq_card_filter_range, hIco, Nat.card_Ico, Nat.add_sub_cancel_left]

section
variable {c : Config} {x y : Nat}

theorem blockPixel_eq_spriteColor_iff (hcolor : c.clearColor ≠ c.spriteColor) (py px : Nat) :
    blockPixel c x y py px = c.spriteColor ↔ (x ≤ px ∧ px < x + c.sprite) ∧ (y ≤ py ∧ py < y + c.sprite) := by
  unfold blockPixel
  split_ifs with h
  · exact iff_of_true rfl h
  · exact iff_of_false hcolor h

/-- A row the block crosses has SPRITE pixels of it, any other row none. -/
theorem count_spriteColor_row (hcolor : c.clearColor ≠ c.spriteColor) (hx : x + c.sprite ≤ c.width) (py : Nat) :
    ((List.range c.width).map fun px => blockPixel c x y py px).count c.spriteColor =
      if y ≤ py ∧ py < y + c.sprite then c.sprite else 0 := by
  have hcount : ((List.range c.width).map fun px => blockPixel c x y py px).count c.spriteColor =
      Nat.count (fun px => (x ≤ px ∧ px < x + c.sprite) ∧ (y ≤ py ∧ py < y + c.sprite)) c.width := by
    rw [List.count, List.countP_map, Nat.count]
    refine List.countP_congr fun px _ => ?_
    simp [blockPixel_eq_spriteColor_iff hcolor]
  rw [hcount]
  split_ifs with hrow
  · simp only [hrow, and_self, and_true]
    exact count_interval hx
  · simp [hrow, Nat.count]

theorem sum_map_ite_range (p : Nat → Prop) [DecidablePred p] (n k : Nat) :
    ((List.range n).map fun i => if p i then k else 0).sum = Nat.count p n * k := by
  rw [List.sum_map_ite]
  simp [Nat.count, List.countP_eq_length_filter]

theorem count_spriteColor_render (m : Memory) (hcolor : c.clearColor ≠ c.spriteColor)
    (hx : (Memory.read c m c.cellX).toNat + c.sprite ≤ c.width)
    (hy : (Memory.read c m c.cellY).toNat + c.sprite ≤ c.height) :
    (render c m).flatten.count c.spriteColor = c.sprite * c.sprite := by
  have hrows : (render c m).map (List.count c.spriteColor) = (List.range c.height).map fun py =>
      if (Memory.read c m c.cellY).toNat ≤ py ∧ py < (Memory.read c m c.cellY).toNat + c.sprite then c.sprite else 0 := by
    rw [render, List.map_map]
    exact List.map_congr_left fun py _ => count_spriteColor_row hcolor hx py
  rw [List.count_flatten, hrows, sum_map_ite_range, count_interval hy]

end

end Sys2Proof.Machine
end

section
open Sys2Proof Sys2Proof.Machine

/-- Settles O40: every pixel is a block pixel of the two position cells. -/
theorem renderPaintsTheBlock : Obligations.RenderPaintsTheBlock := by
  intro c m
  refine ⟨render_sized c m, fun py px hy hx => ?_⟩
  rw [pixel_render m hy hx]
  simp only [blockPixel, and_assoc]

/-- Settles O41: the block lies inside the frame, so SPRITE rows have SPRITE pixels of it and the others none. -/
theorem wholeBlockIsVisible : Obligations.WholeBlockIsVisible := by
  intro s hinv hrange hcolor
  obtain ⟨hw, hh, -, -⟩ := Config.sprite_of_wf hinv.config
  obtain ⟨hx, hy⟩ := hrange
  exact count_spriteColor_render s.mem hcolor (by omega) (by omega)

end

section
/-! Proofs of 00_scope.md and 70_reset_and_hazards.md: which configurations are constructed, and the state that leaves. -/

namespace Sys2Proof

theorem Config.reference_wf : Config.reference.wf = true :=
  Config.wf_iff.2 ⟨by decide, by decide, by decide, by decide, by decide, Config.reference_demoOk, by decide, by decide⟩

/-- R10 (c), pair by pair. -/
theorem Config.buttonsOk_iff {c : Config} : c.buttonsOk = true ↔
    c.btnUp ≠ c.btnDown ∧ c.btnUp ≠ c.btnLeft ∧ c.btnUp ≠ c.btnRight ∧
      c.btnDown ≠ c.btnLeft ∧ c.btnDown ≠ c.btnRight ∧ c.btnLeft ≠ c.btnRight ∧
      c.btnUp < c.numButtons ∧ c.btnDown < c.numButtons ∧ c.btnLeft < c.numButtons ∧ c.btnRight < c.numButtons := by
  simp [Config.buttonsOk, and_assoc]

namespace Machine

variable {c : Config}

theorem construct_of_wf (h : c.wf = true) : construct c = .ok (State.ofConfig c) := if_pos h

theorem construct_of_not_wf (h : ¬ c.wf = true) : construct c = .error .badConfig := if_neg h

/-! ### MemoryImage after reset -/

theorem unlistedByte_cellX (h : c.wf = true) : (unlistedByte c c.cellX).toNat = c.posResetX := by
  obtain ⟨-, -, -, hxy, hxd, -⟩ := Config.cells_of_wf h
  have hfits := (Config.posReset_of_wf h).1.trans (Config.sprite_of_wf h).2.2.1
  rw [unlistedByte, if_neg hxd, if_neg hxy, if_pos rfl, BitVec.toNat_ofNat]
  omega

theorem unlistedByte_cellY (h : c.wf = true) : (unlistedByte c c.cellY).toNat = c.posResetY := by
  obtain ⟨-, -, -, -, -, hyd⟩ := Config.cells_of_wf h
  have hfits := (Config.posReset_of_wf h).2.trans (Config.sprite_of_wf h).2.2.2
  rw [unlistedByte, if_neg hyd, if_pos rfl, BitVec.toNat_ofNat]
  omega

theorem unlistedByte_other {addr : Nat} (hx : addr ≠ c.cellX) (hy : addr ≠ c.cellY) : unlistedByte c addr = 0 := by
  rw [unlistedByte, if_neg hy, if_neg hx, ite_self]

/-! ### The constructed state -/

theorem sized_replicate (c : Config) (p : Rgb) : Frame.sized c (List.replicate c.height (List.replicate c.width p)) = true := by
  simp [Frame.sized]

theorem pixel_replicate {h w py px : Nat} (p : Rgb) (hy : py < h) (hx : px < w) :
    Frame.pixel (List.replicate h (List.replicate w p)) py px = some p := by
  simp [Frame.pixel, hy, hx]

theorem State.ofConfig_inv (h : c.wf = true) : (State.ofConfig c).Inv where
  config := h
  memory := Memory.nil_wf
  image := by rintro _ ⟨⟩
  inputs := List.length_replicate
  frame := sized_replicate c c.clearColor
  snapshot := by rintro _ ⟨⟩

end Machine

end Sys2Proof
end

section
open Sys2Proof Sys2Proof.Machine

/-- Settles O1: the checks of `Config.wf` are the clauses of R10. -/
theorem constructionRefusesBadConfigurations : Obligations.ConstructionRefusesBadConfigurations := by
  refine ⟨fun c => ?_, construct_of_wf Config.reference_wf⟩
  intro ok
  have hwf : c.wf = true ↔ ok := by
    have hentry : c.entry.toNat ≤ 0xFFFF := Nat.le_of_lt_succ c.entry.isLt
    simp only [ok, Config.wf_iff, Config.opcodesOk, Config.cellsOk, Config.buttonsOk_iff, Config.spriteOk, Config.entryOk,
      Config.demoOk_iff, Config.progMax, Config.sizesOk, Config.posResetOk, Bool.and_eq_true, bne_iff_ne,
      decide_eq_true_eq, and_assoc, hentry, and_true]
  exact ⟨fun h => construct_of_wf (hwf.2 h), fun h => construct_of_not_wf (mt hwf.1 h)⟩

/-- Settles O54: field by field; MemoryImage reads as unlisted everywhere. -/
theorem constructionState : Obligations.ConstructionState := by
  intro c h
  exact ⟨_, construct_of_wf h, rfl, rfl, rfl, rfl, rfl, unlistedByte_cellX h, unlistedByte_cellY h,
    fun addr hx hy => unlistedByte_other hx hy, List.length_replicate,
    fun b hb => by simp [State.ofConfig, hb], sized_replicate c c.clearColor,
    fun py px hy hx => pixel_replicate c.clearColor hy hx, rfl, rfl, rfl⟩

/-- Settles O55: the reference configuration is well formed, and construction leaves a legal state. -/
theorem resetStateIsLegal : Obligations.ResetStateIsLegal := State.ofConfig_inv Config.reference_wf

end

section
/-! Proofs of 49_host_interface.md, 48_snapshot.md and 60_exceptions.md: what each host command does, and what no command does. -/

namespace Sys2Proof.Machine

/-! ### The commands of a core that is not terminated -/

section
variable {s : State}

/-- The three cells zeroed, in the order of R250. -/
def Memory.zeroCells (c : Config) (m : Memory) : Memory :=
  Memory.write c (Memory.write c (Memory.write c m c.cellDir 0) c.cellX 0) c.cellY 0

theorem Memory.zeroCells_wf {c : Config} {m : Memory} (hc : c.wf = true) (hm : Memory.wf c m = true) :
    Memory.wf c (Memory.zeroCells c m) = true := by
  obtain ⟨hx, hy, hd, -⟩ := Config.cells_of_wf hc
  exact Memory.write_wf 0 hy (Memory.write_wf 0 hx (Memory.write_wf 0 hd hm))

/-- R65 in one line, for a canonical memory. -/
theorem Memory.read_write {c : Config} {m : Memory} (hm : Memory.wf c m = true) (stored : Nat) (v : Byte) (addr : Nat) :
    Memory.read c (Memory.write c m stored v) addr = if addr = stored then v else Memory.read c m addr := by
  split_ifs with heq
  · rw [heq, Memory.read_write_same v hm]
  · rw [Memory.read_write_other m v heq]

theorem Memory.read_zeroCells {c : Config} {m : Memory} (hc : c.wf = true) (hm : Memory.wf c m = true) (addr : Nat) :
    Memory.read c (Memory.zeroCells c m) addr =
      if addr = c.cellX ∨ addr = c.cellY ∨ addr = c.cellDir then 0 else Memory.read c m addr := by
  obtain ⟨hx, -, hd, -⟩ := Config.cells_of_wf hc
  have hwfd := Memory.write_wf 0 hd hm
  rw [Memory.zeroCells, Memory.read_write (Memory.write_wf 0 hx hwfd), Memory.read_write hwfd, Memory.read_write hm,
    ← ite_or, ← ite_or]
  exact if_congr (or_assoc.trans or_left_comm) rfl rfl

theorem State.Inv.installImage_eq (h : s.Inv) (image : List Byte) (reply : Reply) :
    installImage s image reply = .done { s with prog := some image, mem := Memory.zeroCells s.cfg s.mem } reply := by
  obtain ⟨hx, hy, hd, -⟩ := Config.cells_of_wf h.config
  exact installImage_eq_done hd hx hy image reply

variable (hfatal : s.fatal = none)
include hfatal

theorem command_loadProgram_empty {bytes : Option (List Byte)} (hempty : bytes = none ∨ bytes = some []) :
    command (.loadProgram bytes) s = installImage s s.cfg.demoImage (.err .loadError) := by
  rcases hempty with rfl | rfl <;> simp [command, cmdLoadProgram, terminated_of_fatal hfatal]

theorem command_loadProgram_fits {bytes : List Byte} (hpos : 1 ≤ bytes.length) (hfits : bytes.length ≤ s.cfg.progMax) :
    command (.loadProgram (some bytes)) s = installImage s bytes .ok := by
  have hne : bytes ≠ [] := List.ne_nil_of_length_pos hpos
  simp [command, cmdLoadProgram, terminated_of_fatal hfatal, hne, Nat.not_lt.2 hfits]

theorem command_loadProgram_too_large {bytes : List Byte} (hlarge : s.cfg.progMax < bytes.length) :
    command (.loadProgram (some bytes)) s = .refused .imageTooLarge := by
  have hne : bytes ≠ [] := List.ne_nil_of_length_pos (by omega)
  simp [command, cmdLoadProgram, terminated_of_fatal hfatal, hne, hlarge]

theorem command_reset_eq :
    command .reset s = .done { s with mem := [], pc := 0, a := 0, cycles := 0 } .ok := by
  simp [command, cmdReset, terminated_of_fatal hfatal]

theorem command_setButton_valid {b : Nat} (hb : b < s.cfg.numButtons) (isPressed : Bool) :
    command (.setButton b isPressed) s = .done { s with input := s.input.set b isPressed } .ok := by
  simp [command, cmdSetButton, terminated_of_fatal hfatal, hb]

theorem command_setButton_out_of_range {id : Int} (hid : id < 0 ∨ (s.cfg.numButtons : Int) ≤ id) (isPressed : Bool) :
    command (.setButton id isPressed) s = .done s .ok := by
  have hout : ¬ (0 ≤ id ∧ id < s.cfg.numButtons) := by omega
  simp [command, cmdSetButton, terminated_of_fatal hfatal, hout]

theorem command_currentFrame_eq : command .currentFrame s = .done s (.okFrame s.frame) := by
  simp [command, cmdCurrentFrame, terminated_of_fatal hfatal]

theorem command_saveState_unloaded (hprog : s.prog = none) : command .saveState s = .done s (.err .unavailable) := by
  simp [command, cmdSaveState, terminated_of_fatal hfatal, hprog]

theorem command_saveState_loaded (hprog : s.prog ≠ none) :
    command .saveState s = .done { s with slot := some (snapshotOf s) } (.okSnapshot (snapshotOf s)) := by
  simp [command, cmdSaveState, terminated_of_fatal hfatal, hprog]

theorem command_loadState_incompatible {snap : Snapshot} (hlen : snap.mem.length ≠ s.cfg.memSize) :
    command (.loadState snap) s = .done s (.err .incompatibleSnapshot) := by
  simp [command, cmdLoadState, terminated_of_fatal hfatal, hlen]

theorem command_loadState_compatible {snap : Snapshot} (hlen : snap.mem.length = s.cfg.memSize) :
    command (.loadState snap) s =
      .done { s with mem := Memory.ofBytes s.cfg snap.mem, pc := snap.pc, a := snap.a, cycles := snap.cycles } .ok := by
  simp [command, cmdLoadState, terminated_of_fatal hfatal, hlen]

end

/-! ### The bytes of a snapshot -/

theorem getElem?_eq_read_ofBytes {c : Config} {bytes : List Byte} {addr : Nat} (h : addr < bytes.length) :
    bytes[addr]? = some (Memory.read c (Memory.ofBytes c bytes) addr) := by
  simp [Memory.read_ofBytes, h]

/-- Restoring and saving gives the same bytes. -/
theorem toBytes_ofBytes {c : Config} {bytes : List Byte} (h : bytes.length = c.memSize) :
    Memory.toBytes c (Memory.ofBytes c bytes) = bytes := by
  refine List.ext_getElem? fun addr => ?_
  rcases Nat.lt_or_ge addr c.memSize with hlt | hge
  · rw [Memory.getElem?_toBytes _ hlt, getElem?_eq_read_ofBytes (c := c) (by omega)]
  · rw [List.getElem?_eq_none (by simpa using hge), List.getElem?_eq_none (by omega)]

/-! ### What a command can end in -/

/-- The state a command ends in, with its reply or with the fault it raised. -/
def CommandOutcome.EndsIn (o : CommandOutcome) (t : State) : Prop :=
  (∃ reply, o = .done t reply) ∨ ∃ f, o = .fault t f

@[simp] theorem CommandOutcome.endsIn_done (s t : State) (reply : Reply) : (done s reply).EndsIn t ↔ s = t := by
  simp [EndsIn]

@[simp] theorem CommandOutcome.endsIn_fault (s t : State) (f : Fault) : (fault s f).EndsIn t ↔ s = t := by
  simp [EndsIn]

@[simp] theorem CommandOutcome.not_endsIn_refused (r : Refusal) (t : State) : ¬ (refused r).EndsIn t := by
  simp [EndsIn]

/-- A command that ends at all was called on a core that is not terminated. -/
theorem fatal_of_endsIn {cmd : Command} {s t : State} (h : (command cmd s).EndsIn t) : s.fatal = none := by
  by_contra hfatal
  rw [command_of_terminated hfatal] at h
  exact CommandOutcome.not_endsIn_refused _ _ h

theorem command_loadProgram_cases {s : State} (hfatal : s.fatal = none) (bytes : Option (List Byte)) :
    command (.loadProgram bytes) s = .refused .imageTooLarge ∨
      ∃ image reply, (image = s.cfg.demoImage ∨ 1 ≤ image.length ∧ image.length ≤ s.cfg.progMax) ∧
        command (.loadProgram bytes) s = installImage s image reply := by
  rcases bytes with _ | _ | ⟨b, bs⟩
  · exact .inr ⟨_, _, .inl rfl, command_loadProgram_empty hfatal (.inl rfl)⟩
  · exact .inr ⟨_, _, .inl rfl, command_loadProgram_empty hfatal (.inr rfl)⟩
  · rcases Nat.lt_or_ge s.cfg.progMax (b :: bs).length with hlarge | hfits
    · exact .inl (command_loadProgram_too_large hfatal hlarge)
    · have hpos : 1 ≤ (b :: bs).length := Nat.succ_le_succ (Nat.zero_le _)
      exact .inr ⟨b :: bs, .ok, .inr ⟨hpos, hfits⟩, command_loadProgram_fits hfatal hpos hfits⟩

theorem command_setButton_cases {s : State} (hfatal : s.fatal = none) (id : Int) (isPressed : Bool) :
    ∃ input, input.length = s.input.length ∧ command (.setButton id isPressed) s = .done { s with input := input } .ok := by
  by_cases hid : 0 ≤ id ∧ id < s.cfg.numButtons
  · obtain ⟨b, rfl⟩ := Int.eq_ofNat_of_zero_le hid.1
    exact ⟨_, List.length_set, command_setButton_valid hfatal (Int.ofNat_lt.1 hid.2) isPressed⟩
  · exact ⟨s.input, rfl, command_setButton_out_of_range hfatal (by omega) isPressed⟩

theorem command_saveState_cases {s : State} (hfatal : s.fatal = none) :
    ∃ slot reply, (slot = s.slot ∨ slot = some (snapshotOf s)) ∧
      command .saveState s = .done { s with slot := slot } reply := by
  by_cases hprog : s.prog = none
  · exact ⟨_, _, .inl rfl, command_saveState_unloaded hfatal hprog⟩
  · exact ⟨_, _, .inr rfl, command_saveState_loaded hfatal hprog⟩

theorem command_loadState_cases {s : State} (hfatal : s.fatal = none) (snap : Snapshot) :
    command (.loadState snap) s = .done s (.err .incompatibleSnapshot) ∨
      (snap.mem.length = s.cfg.memSize ∧ command (.loadState snap) s =
        .done { s with mem := Memory.ofBytes s.cfg snap.mem, pc := snap.pc, a := snap.a, cycles := snap.cycles } .ok) := by
  by_cases hlen : snap.mem.length = s.cfg.memSize
  · exact .inr ⟨hlen, command_loadState_compatible hfatal hlen⟩
  · exact .inl (command_loadState_incompatible hfatal hlen)

theorem command_tick_endsIn {now : Millis} {s t : State} (h : (command (.tick now) s).EndsIn t) :
    t = s ∨ tickPass { s with lastTick := some now } = .completed t ∨
      ∃ f, tickPass { s with lastTick := some now } = .faulted t f := by
  rcases h with ⟨reply, hdone⟩ | ⟨f, hfault⟩
  · exact (command_tick_done hdone).imp_right .inl
  · exact .inr (.inr ⟨f, command_tick_fault hfault⟩)

/-! ### The invariant -/

theorem State.Inv.withImage {s : State} (h : s.Inv) {image : List Byte} (hpos : 1 ≤ image.length)
    (hfits : image.length ≤ s.cfg.progMax) :
    ({ s with prog := some image, mem := Memory.zeroCells s.cfg s.mem } : State).Inv :=
  { h with
    memory := Memory.zeroCells_wf h.config h.memory
    image := by rintro _ ⟨rfl⟩; exact ⟨hpos, hfits⟩ }

theorem State.Inv.withInput {s : State} (h : s.Inv) {input : List Bool} (hlen : input.length = s.input.length) :
    ({ s with input := input } : State).Inv :=
  { h with inputs := hlen.trans h.inputs }

theorem State.Inv.withSnapshot {s : State} (h : s.Inv) : ({ s with slot := some (snapshotOf s) } : State).Inv :=
  { h with snapshot := by rintro _ ⟨rfl⟩; exact Memory.length_toBytes s.mem }

theorem command_keeps_inv {cmd : Command} {s t : State} (hs : s.Inv) (h : (command cmd s).EndsIn t) : t.Inv := by
  have hfatal := fatal_of_endsIn h
  cases cmd with
  | loadProgram bytes =>
    rcases command_loadProgram_cases hfatal bytes with hr | ⟨image, reply, himage, hi⟩
    · rw [hr] at h; exact absurd h (CommandOutcome.not_endsIn_refused _ _)
    · rw [hi, hs.installImage_eq, CommandOutcome.endsIn_done] at h
      subst h
      have hsize : 1 ≤ image.length ∧ image.length ≤ s.cfg.progMax := by
        rcases himage with rfl | hsize
        · exact Config.demo_of_wf hs.config
        · exact hsize
      exact hs.withImage hsize.1 hsize.2
  | reset =>
    rw [command_reset_eq hfatal, CommandOutcome.endsIn_done] at h
    subst h
    exact hs.withContext Memory.nil_wf _ _ _
  | setButton id isPressed =>
    obtain ⟨input, hlen, hi⟩ := command_setButton_cases hfatal id isPressed
    rw [hi, CommandOutcome.endsIn_done] at h
    subst h
    exact hs.withInput hlen
  | tick now =>
    have hs' := hs.withLastTick (some now)
    rcases command_tick_endsIn h with rfl | hpass | ⟨f, hpass⟩
    · exact hs
    · exact tickPass_completed_keeps_inv hs' hpass
    · exact (tickPass_faulted_of_inv hs' hpass).1
  | currentFrame =>
    rw [command_currentFrame_eq hfatal, CommandOutcome.endsIn_done] at h
    subst h
    exact hs
  | saveState =>
    obtain ⟨slot, reply, rfl | rfl, hi⟩ := command_saveState_cases hfatal <;>
      rw [hi, CommandOutcome.endsIn_done] at h <;> subst h
    · exact hs
    · exact hs.withSnapshot
  | loadState snap =>
    rcases command_loadState_cases hfatal snap with hi | ⟨hlen, hi⟩ <;> rw [hi, CommandOutcome.endsIn_done] at h <;> subst h
    · exact hs
    · exact hs.withContext (Memory.ofBytes_wf hlen) _ _ _

/-! ### Faults -/

/-- R273, R76: only a tick's operand fetch can end a command of a legal core with a fault. -/
theorem command_fault_of_inv {cmd : Command} {s t : State} {f : Fault} (hs : s.Inv) (h : command cmd s = .fault t f) :
    (∃ now, cmd = .tick now) ∧ (∃ pc, f = .operandPastImageEnd pc) ∧ t.fatal = some f := by
  have hfatal := fatal_of_endsIn (.inr ⟨f, h⟩)
  cases cmd with
  | loadProgram bytes =>
    rcases command_loadProgram_cases hfatal bytes with hr | ⟨image, reply, -, hi⟩
    · rw [hr] at h; cases h
    · rw [hi, hs.installImage_eq] at h; cases h
  | reset => rw [command_reset_eq hfatal] at h; cases h
  | setButton id isPressed =>
    obtain ⟨input, -, hi⟩ := command_setButton_cases hfatal id isPressed
    rw [hi] at h; cases h
  | tick now =>
    obtain ⟨-, hcause, hf⟩ := tickPass_faulted_of_inv (hs.withLastTick (some now)) (command_tick_fault h)
    exact ⟨⟨now, rfl⟩, hf, hcause⟩
  | currentFrame => rw [command_currentFrame_eq hfatal] at h; cases h
  | saveState =>
    obtain ⟨slot, reply, -, hi⟩ := command_saveState_cases hfatal
    rw [hi] at h; cases h
  | loadState snap =>
    rcases command_loadState_cases hfatal snap with hi | ⟨-, hi⟩ <;> rw [hi] at h <;> cases h

/-! ### The "written by" column of R44 -/

/-- From `s` to `t` nothing changed outside the command's rows of R44's table, the terminated bit left out. -/
def WritesOnlyItsRow (cmd : Command) (s t : State) : Prop :=
  t.cfg = s.cfg ∧
    ((∀ bytes, cmd ≠ .loadProgram bytes) → t.prog = s.prog) ∧
    ((∀ id isPressed, cmd ≠ .setButton id isPressed) → t.input = s.input) ∧
    ((∀ now, cmd ≠ .tick now) → t.frame = s.frame ∧ t.lastTick = s.lastTick) ∧
    (cmd ≠ .saveState → t.slot = s.slot) ∧
    (cmd ≠ .reset → (∀ now, cmd ≠ .tick now) → (∀ snap, cmd ≠ .loadState snap) →
      t.pc = s.pc ∧ t.a = s.a ∧ t.cycles = s.cycles) ∧
    (cmd ≠ .reset → (∀ snap, cmd ≠ .loadState snap) → ∀ addr,
      ((∀ now, cmd ≠ .tick now) ∨ (256 ≤ addr ∧ addr ≠ s.cfg.cellX ∧ addr ≠ s.cfg.cellY)) →
      ((∀ bytes, cmd ≠ .loadProgram bytes) ∨ (addr ≠ s.cfg.cellX ∧ addr ≠ s.cfg.cellY ∧ addr ≠ s.cfg.cellDir)) →
      Memory.read t.cfg t.mem addr = Memory.read s.cfg s.mem addr)

theorem WritesOnlyItsRow.refl (cmd : Command) (s : State) : WritesOnlyItsRow cmd s s :=
  ⟨rfl, fun _ => rfl, fun _ => rfl, fun _ => ⟨rfl, rfl⟩, fun _ => rfl, fun _ _ _ => ⟨rfl, rfl, rfl⟩, fun _ _ _ _ _ => rfl⟩

/-- The bit of R41: a reply leaves it, a fault sets it with its cause. -/
def CommandOutcome.FatalFrom (o : CommandOutcome) (s : State) : Prop :=
  match o with
  | .done t _ => t.fatal = s.fatal
  | .fault t f => t.fatal = some f
  | .refused _ => True

theorem command_fatalFrom (cmd : Command) (s : State) : (command cmd s).FatalFrom s := by
  by_cases hfatal : s.fatal = none
  case neg => rw [command_of_terminated hfatal]; trivial
  cases cmd with
  | loadProgram bytes =>
    rcases command_loadProgram_cases hfatal bytes with hr | ⟨image, reply, -, hi⟩
    · rw [hr]; trivial
    · obtain ⟨m, -, hm | ⟨f, hm⟩⟩ := installImage_cases s image reply <;> rw [hi, hm] <;> exact rfl
  | reset => rw [command_reset_eq hfatal]; exact rfl
  | setButton id isPressed =>
    obtain ⟨input, -, hi⟩ := command_setButton_cases hfatal id isPressed
    rw [hi]; exact rfl
  | tick now =>
    rcases hcmd : command (.tick now) s with ⟨t, reply⟩ | ⟨t, f⟩ | r
    · rcases command_tick_done hcmd with rfl | hpass
      · exact rfl
      · obtain ⟨-, -, -, -, -, hft, -⟩ := tickPass_completed_frame hpass
        exact hft
    · obtain ⟨-, -, -, -, -, -, hft, -⟩ := tickPass_faulted_frame (command_tick_fault hcmd)
      exact hft
    · trivial
  | currentFrame => rw [command_currentFrame_eq hfatal]; exact rfl
  | saveState =>
    obtain ⟨slot, reply, -, hi⟩ := command_saveState_cases hfatal
    rw [hi]; exact rfl
  | loadState snap =>
    rcases command_loadState_cases hfatal snap with hi | ⟨-, hi⟩ <;> rw [hi] <;> exact rfl

theorem tick_writesOnlyItsRow {now : Millis} {s t : State} (hcfg : t.cfg = s.cfg) (hprog : t.prog = s.prog)
    (hinput : t.input = s.input) (hslot : t.slot = s.slot)
    (hmem : ∀ addr, 256 ≤ addr → addr ≠ s.cfg.cellX → addr ≠ s.cfg.cellY →
      Memory.read t.cfg t.mem addr = Memory.read s.cfg s.mem addr) : WritesOnlyItsRow (.tick now) s t := by
  refine ⟨hcfg, fun _ => hprog, fun _ => hinput, fun h => absurd rfl (h now), fun _ => hslot,
    fun _ h => absurd rfl (h now), fun _ _ addr haddr _ => ?_⟩
  rcases haddr with h | ⟨h256, hx, hy⟩
  · exact absurd rfl (h now)
  · exact hmem addr h256 hx hy

theorem loadProgram_writesOnlyItsRow {bytes : Option (List Byte)} {s : State} {image : List Byte} {m : Memory}
    {fatal : Option Fault}
    (hm : ∀ addr, addr ≠ s.cfg.cellX → addr ≠ s.cfg.cellY → addr ≠ s.cfg.cellDir →
      Memory.read s.cfg m addr = Memory.read s.cfg s.mem addr) :
    WritesOnlyItsRow (.loadProgram bytes) s { s with prog := some image, mem := m, fatal := fatal } := by
  refine ⟨rfl, fun h => absurd rfl (h bytes), fun _ => rfl, fun _ => ⟨rfl, rfl⟩, fun _ => rfl,
    fun _ _ _ => ⟨rfl, rfl, rfl⟩, fun _ _ addr _ haddr => ?_⟩
  rcases haddr with h | ⟨hx, hy, hd⟩
  · exact absurd rfl (h bytes)
  · exact hm addr hx hy hd

theorem command_writesOnlyItsRow {cmd : Command} {s t : State} (h : (command cmd s).EndsIn t) :
    WritesOnlyItsRow cmd s t := by
  have hfatal := fatal_of_endsIn h
  cases cmd with
  | loadProgram bytes =>
    rcases command_loadProgram_cases hfatal bytes with hr | ⟨image, reply, -, hi⟩
    · rw [hr] at h; exact absurd h (CommandOutcome.not_endsIn_refused _ _)
    · obtain ⟨m, hm, hd | ⟨f, hf⟩⟩ := installImage_cases s image reply
      · rw [hi, hd, CommandOutcome.endsIn_done] at h
        subst h
        exact loadProgram_writesOnlyItsRow hm
      · rw [hi, hf, CommandOutcome.endsIn_fault] at h
        subst h
        exact loadProgram_writesOnlyItsRow hm
  | reset =>
    rw [command_reset_eq hfatal, CommandOutcome.endsIn_done] at h
    subst h
    exact ⟨rfl, fun _ => rfl, fun _ => rfl, fun _ => ⟨rfl, rfl⟩, fun _ => rfl, fun h => absurd rfl h, fun h => absurd rfl h⟩
  | setButton id isPressed =>
    obtain ⟨input, -, hi⟩ := command_setButton_cases hfatal id isPressed
    rw [hi, CommandOutcome.endsIn_done] at h
    subst h
    exact ⟨rfl, fun _ => rfl, fun h => absurd rfl (h id isPressed), fun _ => ⟨rfl, rfl⟩, fun _ => rfl,
      fun _ _ _ => ⟨rfl, rfl, rfl⟩, fun _ _ _ _ _ => rfl⟩
  | tick now =>
    rcases command_tick_endsIn h with rfl | hpass | ⟨f, hpass⟩
    · exact .refl _ _
    · obtain ⟨hcfg, hprog, hinput, -, hslot, -, -, hmem⟩ := tickPass_completed_frame hpass
      exact tick_writesOnlyItsRow hcfg hprog hinput hslot hmem
    · obtain ⟨hcfg, hprog, hinput, -, hslot, -, -, hmem⟩ := tickPass_faulted_frame hpass
      exact tick_writesOnlyItsRow hcfg hprog hinput hslot fun addr h256 _ _ => hmem addr h256
  | currentFrame =>
    rw [command_currentFrame_eq hfatal, CommandOutcome.endsIn_done] at h
    subst h
    exact .refl _ _
  | saveState =>
    obtain ⟨slot, reply, -, hi⟩ := command_saveState_cases hfatal
    rw [hi, CommandOutcome.endsIn_done] at h
    subst h
    exact ⟨rfl, fun _ => rfl, fun _ => rfl, fun _ => ⟨rfl, rfl⟩, fun h => absurd rfl h, fun _ _ _ => ⟨rfl, rfl, rfl⟩,
      fun _ _ _ _ _ => rfl⟩
  | loadState snap =>
    rcases command_loadState_cases hfatal snap with hi | ⟨-, hi⟩ <;> rw [hi, CommandOutcome.endsIn_done] at h <;> subst h
    · exact .refl _ _
    · exact ⟨rfl, fun _ => rfl, fun _ => rfl, fun _ => ⟨rfl, rfl⟩, fun _ => rfl, fun _ _ h => absurd rfl (h snap),
        fun _ h => absurd rfl (h snap)⟩

/-! ### Runs -/

/-- The state a run ends in, with its replies or with the fault of its last command (R259). -/
def RunOutcome.EndsIn (o : RunOutcome) (t : State) : Prop :=
  (∃ replies, o = .ended t replies) ∨ ∃ f, o = .faulted t f

/-- The induction over a run: what every command keeps, in the state a fault leaves too, holds where the run ends. -/
theorem runCommands_induct {P : State → Prop} (hcmd : ∀ cmd s t, P s → (command cmd s).EndsIn t → P t)
    (cmds : List Command) {s t : State} (hs : P s) (h : (runCommands cmds s).EndsIn t) : P t := by
  induction cmds generalizing s with
  | nil =>
    rw [runCommands_nil] at h
    rcases h with ⟨replies, h⟩ | ⟨f, h⟩ <;> cases h
    exact hs
  | cons cmd cmds ih =>
    unfold runCommands at h
    have hnext := hcmd cmd s
    rcases hc : command cmd s with ⟨u, reply⟩ | ⟨u, f⟩ | r <;> simp only [hc] at h
    · refine ih (hnext u hs (.inl ⟨reply, hc⟩)) ?_
      rcases hr : runCommands cmds u with ⟨v, replies⟩ | ⟨v, f⟩ | r <;> rw [hr] at h
      · rcases h with ⟨replies', h⟩ | ⟨f, h⟩ <;> cases h
        exact .inl ⟨replies, rfl⟩
      · exact h
      · exact h
    · have hu := hnext u hs (.inr ⟨f, hc⟩)
      cases cmds with
      | nil =>
        rcases h with ⟨replies, h⟩ | ⟨g, h⟩ <;> cases h
        exact hu
      | cons cmd' cmds' => exact ih hu h
    · rcases h with ⟨replies, h⟩ | ⟨f, h⟩ <;> cases h

/-- A legal core that was not terminated by a MemoryImage access (R45, R76). -/
def LegalCore (s : State) : Prop := s.Inv ∧ ∀ addr, s.fatal ≠ some (.addressOutOfRange addr)

theorem command_keeps_legalCore (cmd : Command) (s t : State) (hs : LegalCore s) (h : (command cmd s).EndsIn t) :
    LegalCore t := by
  refine ⟨command_keeps_inv hs.1 h, fun addr haddr => ?_⟩
  rcases h with ⟨reply, hdone⟩ | ⟨f, hfault⟩
  · have hfatal := command_fatalFrom cmd s
    rw [hdone] at hfatal
    exact hs.2 addr (hfatal.symm.trans haddr)
  · obtain ⟨-, ⟨pc, rfl⟩, hfatal⟩ := command_fault_of_inv hs.1 hfault
    cases hfatal.symm.trans haddr

end Sys2Proof.Machine
end

section
open Sys2Proof Sys2Proof.Machine

/-- Settles O57: command by command; a tick by O56 along its steps, its position update and its render. -/
theorem commandKeepsInvariant : Obligations.CommandKeepsInvariant := by
  intro cmd s t hs h
  exact command_keeps_inv hs h

/-- Settles O39: the id is a button's, and its entry is set, or it is not, and nothing changes. -/
theorem setButtonWritesOneEntry : Obligations.SetButtonWritesOneEntry := by
  intro s id isPressed hinv hfatal
  by_cases hout : id < 0 ∨ (s.cfg.numButtons : Int) ≤ id
  · refine ⟨s, command_setButton_out_of_range hfatal hout isPressed, rfl, rfl, fun b hb => ?_, fun _ => rfl⟩
    rw [if_neg (by omega)]
  · obtain ⟨b', rfl⟩ := Int.eq_ofNat_of_zero_le (show 0 ≤ id by omega)
    have hb' : b' < s.cfg.numButtons := by omega
    refine ⟨_, command_setButton_valid hfatal hb' isPressed, rfl, List.length_set, fun b hb => ?_, fun h => absurd h hout⟩
    have hlen := hinv.inputs
    simp only [List.getElem?_set, Int.natCast_inj, eq_comm (a := b)]
    split_ifs
    · rfl
    · omega
    · rfl

/-- Settles O42: the snapshot's bytes are the bytes read, in order. -/
theorem saveStateCapturesMemoryAndContext : Obligations.SaveStateCapturesMemoryAndContext := by
  intro s hfatal
  exact ⟨command_saveState_unloaded hfatal, fun hprog => ⟨snapshotOf s, command_saveState_loaded hfatal hprog,
    Memory.length_toBytes s.mem, fun _ => Memory.getElem?_toBytes s.mem, rfl, rfl, rfl⟩⟩

/-- Settles O43: a restored memory reads as the snapshot's bytes, and has the canonical form. -/
theorem loadStateRestoresMemoryAndContext : Obligations.LoadStateRestoresMemoryAndContext := by
  intro s snap hfatal
  refine ⟨command_loadState_incompatible hfatal, fun hlen => ⟨_, command_loadState_compatible hfatal hlen, ?_,
    Memory.ofBytes_wf hlen, rfl, rfl, rfl, .refl s⟩⟩
  intro addr haddr
  exact getElem?_eq_read_ofBytes (haddr.trans_eq hlen.symm)

/-- Settles O44: saving and restoring are inverse on canonical memories and on MEM_SIZE bytes. -/
theorem snapshotRoundTrip : Obligations.SnapshotRoundTrip := by
  constructor
  · intro s hinv hfatal hprog
    refine ⟨snapshotOf s, command_saveState_loaded hfatal hprog, ?_⟩
    rw [command_loadState_compatible (s := { s with slot := some (snapshotOf s) }) hfatal (Memory.length_toBytes s.mem)]
    simp only [snapshotOf, Memory.ofBytes_toBytes hinv.memory]
  · intro s t snap h
    have hfatal := fatal_of_endsIn (.inl ⟨_, h⟩)
    rcases command_loadState_cases hfatal snap with hi | ⟨hlen, hi⟩ <;> rw [hi] at h <;> cases h
    refine ⟨fun addr haddr => getElem?_eq_read_ofBytes (haddr.trans_eq hlen.symm), rfl, rfl, rfl, fun hprog => ?_⟩
    refine Eq.trans (command_saveState_loaded hfatal hprog) ?_
    simp only [snapshotOf, toBytes_ofBytes hlen]

/-- Settles O45: the cells lie inside MemoryImage and differ, so the three writes succeed. -/
theorem loadProgramInstallsImage : Obligations.LoadProgramInstallsImage := by
  intro s bytes hinv hfatal hpos
  refine ⟨fun hfits => ?_, fun hlarge => command_loadProgram_too_large hfatal hlarge⟩
  rw [command_loadProgram_fits hfatal hpos hfits, hinv.installImage_eq]
  exact ⟨_, rfl, rfl, Memory.read_zeroCells hinv.config hinv.memory, rfl, rfl, rfl, rfl, rfl, rfl, rfl, hfatal, rfl⟩

/-- Settles O46: as O45, with the demo image; a core with an image that is not terminated is runnable and can be saved. -/
theorem emptyLoadInstallsDemoImage : Obligations.EmptyLoadInstallsDemoImage := by
  intro s bytes hinv hfatal hempty
  rw [command_loadProgram_empty hfatal hempty, hinv.installImage_eq]
  exact ⟨_, rfl, rfl, Memory.read_zeroCells hinv.config hinv.memory, rfl, rfl, rfl, rfl, rfl, rfl, rfl, hfatal, rfl,
    (runnable_iff _).2 ⟨⟨_, rfl⟩, hfatal⟩, _, _, command_saveState_loaded hfatal (Option.some_ne_none _)⟩

/-- Settles O47. -/
theorem currentFrameReturnsFrame : Obligations.CurrentFrameReturnsFrame := by
  intro s
  exact ⟨command_currentFrame_eq, fun hfatal => command_of_terminated hfatal _⟩

/-- Settles O48: the terminated bit by the outcome, the rows command by command. -/
theorem commandsWriteOnlyTheirState : Obligations.CommandsWriteOnlyTheirState := by
  intro cmd s t h
  have hfatal := command_fatalFrom cmd s
  refine ⟨?_, fun f hfault => ?_, command_writesOnlyItsRow h⟩
  · rintro ⟨reply, hdone⟩
    rwa [hdone] at hfatal
  · rwa [hfault] at hfatal

/-- Settles O49: every entry point and the step look at the terminated bit first. -/
theorem terminatedCoreTakesNoCommand : Obligations.TerminatedCoreTakesNoCommand := by
  refine ⟨fun s f => ⟨rfl, rfl⟩, fun s hterminated => ?_⟩
  have hfatal := (terminated_iff s).1 hterminated
  refine ⟨step_of_terminated hfatal, fun cmd cmds => ?_⟩
  have hrefused := command_of_terminated hfatal cmd
  exact ⟨hrefused, by simp only [runCommands, hrefused]⟩

/-- Settles O50: the cells of a legal core lie inside MemoryImage, and its steps fault in their fetch only. -/
theorem onlyTicksFaultAndOnlyOnOperands : Obligations.OnlyTicksFaultAndOnlyOnOperands := by
  intro cmd s t f hs h
  exact command_fault_of_inv hs h

/-- Settles O51. -/
theorem errorCodes : Obligations.ErrorCodes :=
  ⟨rfl, fun _ => rfl, fun _ => rfl, rfl, rfl, rfl, fun _ => rfl, fun _ => rfl⟩

/-- Settles O52: after reset MemoryImage lists nothing, so it reads as unlisted everywhere. -/
theorem resetZeroesMemoryAndContext : Obligations.ResetZeroesMemoryAndContext := by
  intro s hwf hfatal
  exact ⟨_, command_reset_eq hfatal, unlistedByte_cellX hwf, unlistedByte_cellY hwf,
    fun addr hx hy => unlistedByte_other hx hy, rfl, rfl, rfl, .refl s⟩

/-- Settles O53: ENTRY is positive, so the pc 0 of a reset core lies below the window (O14). -/
theorem firstStepAfterResetFetchesAtEntry : Obligations.FirstStepAfterResetFetchesAtEntry := by
  intro s t image hinv hprog h
  have hfatal := fatal_of_endsIn (.inl ⟨_, h⟩)
  rw [command_reset_eq hfatal] at h
  cases h
  have hentry := Config.entry_of_wf hinv.config
  have hbelow : ¬ (s.cfg.entry.toNat ≤ (0 : Addr).toNat ∧ (0 : Addr).toNat < s.cfg.entry.toNat + image.length) :=
    fun h => absurd h.1 (Nat.not_le.2 hentry)
  exact ⟨⟨hfatal, hprog, (hinv.image image hprog).1, (if_neg hbelow).symm, rfl⟩,
    (pcOutsideWindowWrapsToEntry { s with mem := [], pc := 0, a := 0, cycles := 0 } image hprog hbelow).1⟩

/-- Settles O58: construction leaves a legal core, and every command of a run keeps it one. -/
theorem reachableCoresAreLegal : Obligations.ReachableCoresAreLegal := by
  rintro s ⟨c, s0, cmds, hconstruct, hrun⟩
  have hstart : LegalCore s0 := by
    by_cases hwf : c.wf = true
    · cases (construct_of_wf hwf).symm.trans hconstruct
      exact ⟨State.ofConfig_inv hwf, by rintro _ ⟨⟩⟩
    · cases (construct_of_not_wf hwf).symm.trans hconstruct
  exact runCommands_induct command_keeps_legalCore cmds hstart hrun

end
